-- ==== Sys2Proof/Word.lean ====
section
/-!
DEFINITION. The fixed-width values of the block (spec/00_scope.md R7 to R9): everything the spec adds, shifts,
masks or stores as a register is a bit vector of the width the spec gives it.
-/

namespace Sys2Proof

/-- A general register, a memory byte, the field KK, a timer: 8 bits, unsigned (R7 `REG_WIDTH`, R34). -/
abbrev Byte := BitVec 8

/-- An instruction word, the program counter, a call-stack entry, the address register: 16 bits, unsigned
(R7 `INSTR_WIDTH`, `PC_WIDTH`, `STACK_ENTRY_WIDTH`, `I_WIDTH`). -/
abbrev Word := BitVec 16

/-- The field ADDR and the launch parameter `LOAD_OFFSET`: 12 bits, unsigned (R7 `ADDR_WIDTH`, R48). -/
abbrev Addr := BitVec 12

/-- A 4-bit field of an instruction word (R8). -/
abbrev Nibble := BitVec 4

/-- The index of a general register, 0 to 15 (R15): a 4-bit field names one, so no index is out of range. -/
abbrev Reg := Fin 16

end Sys2Proof
end

