-- ==== Sys2Proof/Config.lean ====
section
/-!
DEFINITION. What is fixed for the hardware (spec/00_scope.md R7), and the one function the spec leaves open.
The launch parameter `LOAD_OFFSET` (R7, D19) is no constant: it is an argument of the host's load action
(Machine/Agents.lean).
-/

namespace Sys2Proof.Config

/-- `NUM_REGS`: the general registers V0 to VF (R7, R15). -/
abbrev numRegs : Nat := 16

/-- `FLAG_REG`: the index of VF (R7, R16). -/
abbrev flagReg : Reg := 15

/-- `MEM_SIZE`: bytes of memory, addresses 0x000 to 0xFFF (R7, R34). -/
abbrev memSize : Nat := 4096

/-- `STACK_DEPTH`: entries of the call stack (R7, R19). -/
abbrev stackDepth : Nat := 16

/-- `TIMER_DECREMENT`: what the external ticker makes of a timer's value (R113, D17).
The spec leaves it OPEN: the timer may stop at 0 or wrap. It is a free value: nothing is known of it, so a claim
about a timer's value holds whatever the ticker does. Log 6. -/
opaque timerDecrement : Byte → Byte

end Sys2Proof.Config
end

