-- ==== Sys2Proof/Syntax.lean ====
section
/-!
DEFINITION. The instructions: one constructor for each row of spec/opcode_table.json, in the table's order
(spec/30_encoding.md R55, R60). A constructor carries the operands `Decode` of R55 gives its instruction; the
fields the dispatcher ignores (N of SER, Y of SHR and SHL, R54) are no operands. Log 4.
-/

namespace Sys2Proof

/-- The 16 instructions of the reduced set (R61). `x` is the register field X, `y` the register field Y, `kk` the
literal KK, `a` the address ADDR (R48). -/
inductive Instr where
  /-- JP, jump (R81). -/
  | jp (a : Addr)
  /-- CALL, subroutine call (R82). -/
  | call (a : Addr)
  /-- SE, skip if register equals immediate (R86). -/
  | se (x : Reg) (kk : Byte)
  /-- SNE, skip if register does not equal immediate (R87). -/
  | sne (x : Reg) (kk : Byte)
  /-- SER, skip if register equals register (R88). -/
  | ser (x y : Reg)
  /-- LD, load immediate (R89). -/
  | ld (x : Reg) (kk : Byte)
  /-- ADD, add immediate without flag (R90). -/
  | add (x : Reg) (kk : Byte)
  /-- LDR, copy register (R91). -/
  | ldr (x y : Reg)
  /-- OR, bitwise OR (R92). -/
  | or (x y : Reg)
  /-- AND, bitwise AND (R93). -/
  | and (x y : Reg)
  /-- XOR, bitwise exclusive OR (R94). -/
  | xor (x y : Reg)
  /-- ADDR, add registers with carry into VF (R95). -/
  | addr (x y : Reg)
  /-- SUB, subtract Y from X with not-borrow into VF (R96). -/
  | sub (x y : Reg)
  /-- SHR, shift right by one (R97). -/
  | shr (x : Reg)
  /-- SUBN, subtract X from Y with not-borrow into VF (R98). -/
  | subn (x y : Reg)
  /-- SHL, shift left by one (R99). -/
  | shl (x : Reg)
  deriving DecidableEq, Repr

/-- The mnemonic of an instruction, as the opcode table spells it (R60, R63). -/
def Instr.mnemonic : Instr → String
  | .jp _ => "JP"
  | .call _ => "CALL"
  | .se _ _ => "SE"
  | .sne _ _ => "SNE"
  | .ser _ _ => "SER"
  | .ld _ _ => "LD"
  | .add _ _ => "ADD"
  | .ldr _ _ => "LDR"
  | .or _ _ => "OR"
  | .and _ _ => "AND"
  | .xor _ _ => "XOR"
  | .addr _ _ => "ADDR"
  | .sub _ _ => "SUB"
  | .shr _ => "SHR"
  | .subn _ _ => "SUBN"
  | .shl _ => "SHL"

/-- The registers an instruction names in its operand fields, X first (R51). -/
def Instr.operandRegs : Instr → List Reg
  | .jp _ => []
  | .call _ => []
  | .se x _ => [x]
  | .sne x _ => [x]
  | .ser x y => [x, y]
  | .ld x _ => [x]
  | .add x _ => [x]
  | .ldr x y => [x, y]
  | .or x y => [x, y]
  | .and x y => [x, y]
  | .xor x y => [x, y]
  | .addr x y => [x, y]
  | .sub x y => [x, y]
  | .shr x => [x]
  | .subn x y => [x, y]
  | .shl x => [x]

/-- The destination register of an instruction's result, the `reg_we` column of R76: it is X or there is none. -/
def Instr.dest : Instr → Option Reg
  | .jp _ => none
  | .call _ => none
  | .se _ _ => none
  | .sne _ _ => none
  | .ser _ _ => none
  | .ld x _ => some x
  | .add x _ => some x
  | .ldr x _ => some x
  | .or x _ => some x
  | .and x _ => some x
  | .xor x _ => some x
  | .addr x _ => some x
  | .sub x _ => some x
  | .shr x => some x
  | .subn x _ => some x
  | .shl x => some x

/-- The instructions that write VF as a flag, the rows of R26. -/
def Instr.writesFlag : Instr → Bool
  | .jp _ => false
  | .call _ => false
  | .se _ _ => false
  | .sne _ _ => false
  | .ser _ _ => false
  | .ld _ _ => false
  | .add _ _ => false
  | .ldr _ _ => false
  | .or _ _ => false
  | .and _ _ => false
  | .xor _ _ => false
  | .addr _ _ => true
  | .sub _ _ => true
  | .shr _ => true
  | .subn _ _ => true
  | .shl _ => true

/-- What the host launches (R119): the program's bytes and the load offset they go to. -/
structure Launch where
  offset : Addr
  rom : List Byte
  deriving DecidableEq, Repr

end Sys2Proof
end

