-- ==== Sys2Proof/WellFormed.lean ====
section
/-!
DEFINITION. The checks on terms the types do not already make.

An `Instr` needs no check of its operands: a register index is a `Fin 16`, KK has 8 bits and ADDR 12 bits, which is
the whole range an encoding admits ("decoding from a 4-bit field guarantees this structurally", R15), and every
value of every operand is executable (R16, R77). So every `Instr` is well formed. What can be ill formed is a
launch (R119), and what a program can break is the contract on VF (R16, R123), which the block does not enforce.
-/

namespace Sys2Proof

/-- A valid launch: the program fits into memory, `LOAD_OFFSET + length <= 4096` (R119, D19). -/
def Launch.wellFormed (l : Launch) : Bool :=
  decide (l.offset.toNat + l.rom.length ≤ Config.memSize)

/-- The programmer contract of R16 and R123: no operand of the instruction is VF.
The block executes an instruction that breaks it like any other. -/
def Instr.keepsVFContract (i : Instr) : Bool :=
  i.operandRegs.all fun r => decide (r ≠ Config.flagReg)

end Sys2Proof
end

