-- ==== Sys2Proof/Decode.lean ====
section
/-!
DEFINITION. The bit-field decoder, the decode function, the opcode table and the encoder
(spec/30_encoding.md R48 to R63).
-/

namespace Sys2Proof

/-- Field G, bits 15:12 (R48). -/
def fieldG (w : Word) : Nibble := w.extractLsb' 12 4

/-- Field X, bits 11:8 (R48). -/
def fieldX (w : Word) : Nibble := w.extractLsb' 8 4

/-- Field Y, bits 7:4 (R48). -/
def fieldY (w : Word) : Nibble := w.extractLsb' 4 4

/-- Field N, bits 3:0 (R48). -/
def fieldN (w : Word) : Nibble := w.extractLsb' 0 4

/-- Field KK, bits 7:0 (R48). -/
def fieldKK (w : Word) : Byte := w.extractLsb' 0 8

/-- Field ADDR, bits 11:0 (R48). -/
def fieldADDR (w : Word) : Addr := w.extractLsb' 0 12

/-- The register a 4-bit field names (R50). -/
def regOf (n : Nibble) : Reg := n.toFin

/-- The 4-bit field that names a register (R50). -/
def nibbleOf (r : Reg) : Nibble := BitVec.ofFin r

/-- The instruction word of the two bytes at the fetch address, the first the more significant (R37, D2). -/
def assemble (hi lo : Byte) : Word := hi ++ lo

/-- The byte of a word that lies at the lower address (R37, D2). -/
def highByte (w : Word) : Byte := w.extractLsb' 8 8

/-- The byte of a word that lies at the higher address (R37, D2). -/
def lowByte (w : Word) : Byte := w.extractLsb' 0 8

/-- Why bytes are no instruction. -/
inductive DecodeError where
  /-- `Unimplemented(w)` of R55: the word selects no handler (R56). -/
  | unimplemented (w : Word)
  /-- Fewer than the two bytes every instruction has (R62). The fetch of a step always supplies two (R41). -/
  | truncated
  deriving DecidableEq, Repr

/-- Level 2 of the dispatcher, consulted for G = 8 only: it selects on N (R53, R55). -/
def decodeGroup8 (w : Word) : Except DecodeError Instr :=
  let x := regOf (fieldX w)
  let y := regOf (fieldY w)
  match fieldN w with
  | 0x0#4 => .ok (.ldr x y)
  | 0x1#4 => .ok (.or x y)
  | 0x2#4 => .ok (.and x y)
  | 0x3#4 => .ok (.xor x y)
  | 0x4#4 => .ok (.addr x y)
  | 0x5#4 => .ok (.sub x y)
  | 0x6#4 => .ok (.shr x)
  | 0x7#4 => .ok (.subn x y)
  | 0xE#4 => .ok (.shl x)
  | _ => .error (.unimplemented w)

/-- `Decode` of R55, total on all words: level 1 of the dispatcher selects on G alone (R52), so N of SER is
ignored (R54, C10). -/
def decode (w : Word) : Except DecodeError Instr :=
  match fieldG w with
  | 0x1#4 => .ok (.jp (fieldADDR w))
  | 0x2#4 => .ok (.call (fieldADDR w))
  | 0x3#4 => .ok (.se (regOf (fieldX w)) (fieldKK w))
  | 0x4#4 => .ok (.sne (regOf (fieldX w)) (fieldKK w))
  | 0x5#4 => .ok (.ser (regOf (fieldX w)) (regOf (fieldY w)))
  | 0x6#4 => .ok (.ld (regOf (fieldX w)) (fieldKK w))
  | 0x7#4 => .ok (.add (regOf (fieldX w)) (fieldKK w))
  | 0x8#4 => decodeGroup8 w
  | _ => .error (.unimplemented w)

/-- Decoding from bytes as memory holds them: one instruction and the bytes after it (R37, R62). -/
def decodeBytes : List Byte → Except DecodeError (Instr × List Byte)
  | hi :: lo :: rest =>
    match decode (assemble hi lo) with
    | .ok i => .ok (i, rest)
    | .error e => .error e
  | _ => .error .truncated

/-- The bytes of a word as memory holds them, lowest address first (R37). -/
def wordBytes (w : Word) : List Byte := [highByte w, lowByte w]

/-- The host's question: the instruction the decoder reads from an opcode-table word. -/
def decodeTableWord (nbits w : Nat) : Option Instr :=
  match decodeBytes (wordBytes (BitVec.ofNat 16 (w % 2 ^ nbits))) with
  | .ok (i, _) => some i
  | .error _ => none

/-- A word of format A: group and address (R51). -/
def wordA (g : Nibble) (a : Addr) : Word := g ++ a

/-- A word of format XK: group, register and literal (R51). -/
def wordXK (g : Nibble) (x : Reg) (kk : Byte) : Word := g ++ nibbleOf x ++ kk

/-- A word of format XY: group, two registers and the low nibble (R51). -/
def wordXY (g : Nibble) (x y : Reg) (n : Nibble) : Word := g ++ nibbleOf x ++ nibbleOf y ++ n

/-- The word of an instruction (R51, R60), with 0 in a field the instruction ignores (R63, D15). -/
def encode : Instr → Word
  | .jp a => wordA 0x1#4 a
  | .call a => wordA 0x2#4 a
  | .se x kk => wordXK 0x3#4 x kk
  | .sne x kk => wordXK 0x4#4 x kk
  | .ser x y => wordXY 0x5#4 x y 0x0#4
  | .ld x kk => wordXK 0x6#4 x kk
  | .add x kk => wordXK 0x7#4 x kk
  | .ldr x y => wordXY 0x8#4 x y 0x0#4
  | .or x y => wordXY 0x8#4 x y 0x1#4
  | .and x y => wordXY 0x8#4 x y 0x2#4
  | .xor x y => wordXY 0x8#4 x y 0x3#4
  | .addr x y => wordXY 0x8#4 x y 0x4#4
  | .sub x y => wordXY 0x8#4 x y 0x5#4
  | .shr x => wordXY 0x8#4 x 0 0x6#4
  | .subn x y => wordXY 0x8#4 x y 0x7#4
  | .shl x => wordXY 0x8#4 x 0 0xE#4

/-- The bits of a word that decoding looks at: all but N of SER and Y of SHR and SHL (R54). -/
def heededBits : Instr → Word
  | .ser _ _ => 0xFFF0
  | .shr _ => 0xFF0F
  | .shl _ => 0xFF0F
  | .jp _ => 0xFFFF
  | .call _ => 0xFFFF
  | .se _ _ => 0xFFFF
  | .sne _ _ => 0xFFFF
  | .ld _ _ => 0xFFFF
  | .add _ _ => 0xFFFF
  | .ldr _ _ => 0xFFFF
  | .or _ _ => 0xFFFF
  | .and _ _ => 0xFFFF
  | .xor _ _ => 0xFFFF
  | .addr _ _ => 0xFFFF
  | .sub _ _ => 0xFFFF
  | .subn _ _ => 0xFFFF

/-- A row of the opcode table: a word belongs to it when its bits under `mask` are those of `value`
(spec/opcode_table.json `mask` and `match`, R60). -/
structure OpcodeRow where
  mnemonic : String
  value : Word
  mask : Word
  deriving DecidableEq, Repr

/-- The word belongs to the row. -/
def OpcodeRow.has (r : OpcodeRow) (w : Word) : Bool := w &&& r.mask == r.value

/-- The opcode table's row of an instruction (spec/opcode_table.json, R60). -/
def opcodeRow : Instr → OpcodeRow
  | .jp _ => ⟨"JP", 0x1000, 0xF000⟩
  | .call _ => ⟨"CALL", 0x2000, 0xF000⟩
  | .se _ _ => ⟨"SE", 0x3000, 0xF000⟩
  | .sne _ _ => ⟨"SNE", 0x4000, 0xF000⟩
  | .ser _ _ => ⟨"SER", 0x5000, 0xF000⟩
  | .ld _ _ => ⟨"LD", 0x6000, 0xF000⟩
  | .add _ _ => ⟨"ADD", 0x7000, 0xF000⟩
  | .ldr _ _ => ⟨"LDR", 0x8000, 0xF00F⟩
  | .or _ _ => ⟨"OR", 0x8001, 0xF00F⟩
  | .and _ _ => ⟨"AND", 0x8002, 0xF00F⟩
  | .xor _ _ => ⟨"XOR", 0x8003, 0xF00F⟩
  | .addr _ _ => ⟨"ADDR", 0x8004, 0xF00F⟩
  | .sub _ _ => ⟨"SUB", 0x8005, 0xF00F⟩
  | .shr _ => ⟨"SHR", 0x8006, 0xF00F⟩
  | .subn _ _ => ⟨"SUBN", 0x8007, 0xF00F⟩
  | .shl _ => ⟨"SHL", 0x800E, 0xF00F⟩

/-- The opcode table, in its own order (spec/opcode_table.json, R60, R61). -/
def opcodeTable : List OpcodeRow :=
  [.jp 0, .call 0, .se 0 0, .sne 0 0, .ser 0 0, .ld 0 0, .add 0 0, .ldr 0 0].map opcodeRow ++
  [.or 0 0, .and 0 0, .xor 0 0, .addr 0 0, .sub 0 0, .shr 0, .subn 0 0, .shl 0].map opcodeRow

/-- One hexadecimal digit. -/
def hexDigit (n : Nibble) : Char :=
  (['0', '1', '2', '3', '4', '5', '6', '7', '8', '9', 'A', 'B', 'C', 'D', 'E', 'F'] : List Char).getD n.toNat '?'

/-- A register operand in the assembler's spelling: `V` and one hexadecimal digit (R63). -/
def asmReg (r : Reg) : List Char := ['V', hexDigit (nibbleOf r)]

/-- The literal KK in the assembler's spelling (R63). -/
def asmKK (kk : Byte) : List Char := ['0', 'x', hexDigit (kk.extractLsb' 4 4), hexDigit (kk.extractLsb' 0 4)]

/-- The address ADDR in the assembler's spelling (R63). -/
def asmAddr (a : Addr) : List Char :=
  ['0', 'x', hexDigit (a.extractLsb' 8 4), hexDigit (a.extractLsb' 4 4), hexDigit (a.extractLsb' 0 4)]

/-- The operands of an instruction in the assembler's spelling, in order (R63). -/
def asmOperands : Instr → List (List Char)
  | .jp a => [asmAddr a]
  | .call a => [asmAddr a]
  | .se x kk => [asmReg x, asmKK kk]
  | .sne x kk => [asmReg x, asmKK kk]
  | .ser x y => [asmReg x, asmReg y]
  | .ld x kk => [asmReg x, asmKK kk]
  | .add x kk => [asmReg x, asmKK kk]
  | .ldr x y => [asmReg x, asmReg y]
  | .or x y => [asmReg x, asmReg y]
  | .and x y => [asmReg x, asmReg y]
  | .xor x y => [asmReg x, asmReg y]
  | .addr x y => [asmReg x, asmReg y]
  | .sub x y => [asmReg x, asmReg y]
  | .shr x => [asmReg x]
  | .subn x y => [asmReg x, asmReg y]
  | .shl x => [asmReg x]

/-- An instruction in the assembler's spelling, `MNEMONIC` and its operands with commas between (R63, D15). -/
def asmText (i : Instr) : List Char :=
  i.mnemonic.toList ++ [' '] ++ [',', ' '].intercalate (asmOperands i)

end Sys2Proof
end

