-- ==== Sys2Proof/Machine/State.lean ====
section
/-!
DEFINITION. Machine State and the fault latch as plain data, the state after reset, and the reasons a step or a
host action can stop (spec/10_state.md R15 to R33).
-/

namespace Sys2Proof.Machine

/-- `fault.kind` (R28, R102): no error, or the kind of the error the block raised.
The codes 5 to 7 are never written, so they have no constructor (R102); `FaultKind.code` gives the 3-bit code. -/
inductive FaultKind where
  | none
  | unimplementedOpcode
  | stackOverflow
  | stackUnderflow
  | outOfBoundsFetch
  deriving DecidableEq, Repr

/-- The fault latch (R28): the only element the spec adds to Machine State (R30). -/
structure FaultLatch where
  /-- NONE, or the error that halted the block. -/
  kind : FaultKind
  /-- The instruction word for `UnimplementedOpcode`, 0 otherwise (R103). -/
  word : Word
  /-- The fetch address of the step that raised the error (R103). -/
  pc : Word
  deriving DecidableEq, Repr

/-- An error a step can raise, with the information it carries (R101, R103). -/
inductive Error where
  | unimplementedOpcode (w : Word)
  | stackOverflow
  | stackUnderflow
  | outOfBoundsFetch
  deriving DecidableEq, Repr

/-- Memory as the list of the bytes that differ from what an unlisted address reads as, addresses strictly rising
(`Memory.wf`, Machine/Ops.lean). -/
abbrev Memory := List Host.Cell

/-- Machine State (R13) and the fault latch (R28). -/
structure State where
  /-- The general registers V0 to VF (R15); entry 15 is VF, the only flag (R16, R24). -/
  v : Vector Byte 16
  /-- The program counter (R17). -/
  pc : Word
  /-- The stack pointer: how many entries of the call stack are occupied, 0 to 16 (R20). -/
  sp : BitVec 5
  /-- The call stack (R19). -/
  stack : Vector Word 16
  /-- The address register `I`, which no instruction in scope reads or writes (R21). -/
  i : Word
  /-- The delay timer `DT` (R22). -/
  dt : Byte
  /-- The sound timer `ST` (R22). -/
  st : Byte
  /-- Memory (R23, R34). -/
  mem : Memory
  /-- The fault latch (R28). -/
  fault : FaultLatch
  deriving DecidableEq, Repr

/-- What stops the model where the spec gives nothing to do.
The four errors of the spec are not here: each is taken as a next state with the fault latch written (R104). -/
inductive Fault where
  /-- A byte is read at an address outside 0x000 to 0xFFF, which does not exist (R34, R38).
  Raised by `Memory.read`.
  No step reaches it, because the fetch checks its address first (R39).
  Safe: the model stops and says nothing of the byte. -/
  | noSuchAddress (a : Nat)
  deriving DecidableEq, Repr

/-- What the model refuses. -/
inductive Refusal where
  /-- An instruction that has no meaning yet; raised by `exec`'s arms only, and by none of them now.
  Safe: nothing is claimed of it. -/
  | notModelled (mnemonic : String)
  /-- A launch whose program does not fit into memory (R119, D19).
  Raised by the host's load action in Machine/Agents.lean, never by a step.
  Safe: such a launch is outside every claim. -/
  | invalidLaunch
  /-- An action of the host at a time the spec does not allow it (R119, R121, D18, D22).
  Raised by `System.act` in Machine/Agents.lean, never by a step.
  Safe: such a run is outside every claim. -/
  | hostActionNotAllowed
  deriving DecidableEq, Repr

/-- The fault latch with no error in it (R31). -/
def FaultLatch.clear : FaultLatch := ⟨.none, 0, 0⟩

/-- The machine right after reset: every element is zero and the fault latch is clear (R31, R118).
Memory lists nothing, so every byte reads as 0x00. -/
def State.reset : State where
  v := Vector.replicate 16 0
  pc := 0
  sp := 0
  stack := Vector.replicate 16 0
  i := 0
  dt := 0
  st := 0
  mem := []
  fault := FaultLatch.clear

end Sys2Proof.Machine
end

