-- ==== Sys2Proof/Machine/Ops.lean ====
section
/-!
DEFINITION. The named operations over memory, registers, the program counter, the call stack and the fault latch,
raising an error (the hardware's only exception, R104), and the commit rule of a step (R68).
There is no return from an error: nothing but reset clears the fault latch (R107), and reset is `State.reset`.
-/

namespace Sys2Proof.Machine

/-! ### Memory -/

/-- What an address of memory that the list does not name reads as: every byte is 0x00 after reset (R31). -/
def Memory.blank : Byte := 0

/-- The canonical form: addresses strictly rising and inside memory, and no entry that an unlisted address reads
as. -/
abbrev Memory.wf (m : Memory) : Prop :=
  m.Pairwise (fun c d => c.1 < d.1) ∧ ∀ c ∈ m, c.1 < Config.memSize ∧ c.2 ≠ Memory.blank

/-- The byte the list gives an address. -/
def Memory.lookup : Memory → Nat → Byte
  | [], _ => Memory.blank
  | (k, b) :: m, a => if k = a then b else Memory.lookup m a

/-- `MemRead(a, 1)` (R10, R38): the byte at an address of 0x000 to 0xFFF; another address does not exist (R34).
Reading changes nothing (R41). -/
def Memory.read (m : Memory) (a : Nat) : Except Fault Byte :=
  if a < Config.memSize then .ok (Memory.lookup m a) else .error (.noSuchAddress a)

/-- Put a byte at an address of the list, in canonical form. -/
def Memory.put : Memory → Nat → Byte → Memory
  | [], a, b => if b = Memory.blank then [] else [(a, b)]
  | (k, c) :: m, a, b =>
    if a < k then
      if b = Memory.blank then (k, c) :: m else (a, b) :: (k, c) :: m
    else if a = k then
      if b = Memory.blank then m else (a, b) :: m
    else (k, c) :: Memory.put m a b

/-- Write one byte of memory. No instruction does (R42): the host's loader does (R119), and `placeWord`.
An address outside memory holds nothing, so writing there leaves memory as it is. Log 8. -/
def Memory.write (m : Memory) (a : Nat) (b : Byte) : Memory :=
  if a < Config.memSize then Memory.put m a b else m

/-- Write bytes to consecutive addresses, the first at `a` (the loader's copy, R119). -/
def Memory.writeBytes (m : Memory) (a : Nat) : List Byte → Memory
  | [] => m
  | b :: bs => Memory.writeBytes (Memory.write m a b) (a + 1) bs

/-! ### General registers -/

/-- `x[r]` (R10, R15). -/
def State.reg (s : State) (r : Reg) : Byte := s.v.get r

/-- `x[r] <- b` (R10, R15): every register is writable, VF like the others (R16). -/
def State.setReg (s : State) (r : Reg) (b : Byte) : State := { s with v := s.v.set r b }

/-- The flag write: 0x00 or 0x01 into all 8 bits of VF (R25). -/
def State.setFlag (s : State) (c : Bool) : State := s.setReg Config.flagReg (if c then 0x01 else 0x00)

/-! ### Program counter -/

/-- `pc <- (pc + 2) mod 2^16` (R67, R70): the Cycle Driver's advance. -/
def State.advance (s : State) : State := { s with pc := s.pc + 2 }

/-- `pc <- target` (R10): a jump replaces the advanced counter (R69). -/
def State.jump (s : State) (target : Word) : State := { s with pc := target }

/-- A skip: the further `pc <- (pc + 2) mod 2^16` when the condition holds (R69, R86 to R88). -/
def State.skipIf (s : State) (c : Bool) : State := if c then { s with pc := s.pc + 2 } else s

/-! ### Call stack -/

/-- `stack[j]` (R19). -/
def State.entry (s : State) (j : Fin 16) : Word := s.stack.get j

/-- `full`: no entry is free (R83). The test `sp >= 16` covers the values above 16, which no run reaches (R82,
D14). -/
def State.stackFull (s : State) : Bool := decide (Config.stackDepth ≤ s.sp.toNat)

/-- `empty`: no entry is occupied (R83). -/
def State.stackEmpty (s : State) : Bool := decide (s.sp = 0)

/-- `Push(w)` of R83: entry `sp` is written, then `sp` rises. Its precondition `sp < 16` is checked by the caller; no
entry has an index above 15, so beyond it nothing would be written. -/
def State.push (s : State) (w : Word) : State :=
  { s with stack := s.stack.setIfInBounds s.sp.toNat w, sp := s.sp + 1 }

/-- `Pop()` of R84, on the legal values of `sp` (R20): the value popped and the state after, or `StackUnderflow`.
The entry keeps its value (D13). No word reaches the pop (R58, D10). -/
def State.pop (s : State) (h : s.sp.toNat ≤ Config.stackDepth) : Except Error (Word × State) :=
  if h0 : s.sp.toNat = 0 then .error .stackUnderflow
  else
    have hj : s.sp.toNat - 1 < Config.stackDepth := by omega
    .ok (s.entry ⟨s.sp.toNat - 1, hj⟩, { s with sp := s.sp - 1 })

/-! ### Errors -/

/-- The 3-bit code of `fault.kind` (R102, D8). -/
def FaultKind.code : FaultKind → BitVec 3
  | .none => 0
  | .unimplementedOpcode => 1
  | .stackOverflow => 2
  | .stackUnderflow => 3
  | .outOfBoundsFetch => 4

/-- The kind an error leaves in the latch (R102). -/
def Error.kind : Error → FaultKind
  | .unimplementedOpcode _ => .unimplementedOpcode
  | .stackOverflow => .stackOverflow
  | .stackUnderflow => .stackUnderflow
  | .outOfBoundsFetch => .outOfBoundsFetch

/-- The word an error leaves in the latch: the raw word for `UnimplementedOpcode`, 0 otherwise (R103, R104). -/
def Error.word : Error → Word
  | .unimplementedOpcode w => w
  | .stackOverflow => 0
  | .stackUnderflow => 0
  | .outOfBoundsFetch => 0

/-- `raise E(info)` of R104, applied to the state before the step: `pc` is the fetch address `f`.
The latch is written and nothing else of the step is committed (R68, D6). -/
def State.raise (s : State) (e : Error) : State := { s with fault := ⟨e.kind, e.word, s.pc⟩ }

/-- The block is halted: the latch holds an error (R14, R28). -/
def State.halted (s : State) : Bool := decide (s.fault.kind ≠ .none)

/-! ### The commit rule -/

/-- The outcome of an instruction's pseudocode on the state before the step (R67, R68).
The pseudocode runs with `pc` already advanced to `f + 2` (R17); either all its writes are committed, or it raises
an error and none is. -/
def transact (s : State) (body : State → Except Error State) : Host.Outcome State Fault Refusal :=
  match body s.advance with
  | .ok t => .next t
  | .error e => .next (s.raise e)

/-- The outcome of pseudocode that raises no error. -/
def complete (s : State) (body : State → State) : Host.Outcome State Fault Refusal :=
  transact s fun t => .ok (body t)

/-! ### The instruction fetch -/

/-- The bounds check of the fetch, `f <= MEM_SIZE - 2` (R38, R39, D3). -/
def State.fetchInBounds (s : State) : Bool := decide (s.pc.toNat ≤ Config.memSize - 2)

/-- The two one-byte reads of the fetch and the word they make, the byte at `f` the more significant (R37, R38). -/
def State.fetchWord (s : State) : Except Fault Word :=
  match s.mem.read s.pc.toNat, s.mem.read (s.pc.toNat + 1) with
  | .ok hi, .ok lo => .ok (assemble hi lo)
  | .error r, _ => .error r
  | _, .error r => .error r

/-- The state with a word stored where the next step fetches it: its bytes at `pc` and `pc + 1` (R37). -/
def State.placeWord (s : State) (w : Word) : State :=
  { s with mem := s.mem.writeBytes s.pc.toNat (wordBytes w) }

end Sys2Proof.Machine
end

