-- ==== Sys2Proof/Machine/Operands.lean ====
section
/-!
DEFINITION. The operand forms (spec/30_encoding.md R50, R51) and the latching of the register operands
(spec/40_datapath.md R71): both read ports read before any write of the step, so an instruction's pseudocode first
takes `a` and `b` from here and then computes and writes (R11, D11).
-/

namespace Sys2Proof.Machine

/-- The latched operands `a = x[X]` and `b = x[Y]` (R14, R71). -/
structure Latched where
  a : Byte
  b : Byte
  deriving DecidableEq, Repr

/-- Operand form XY: both read ports (R51, R71). -/
def State.latchXY (s : State) (x y : Reg) : Latched := ⟨s.reg x, s.reg y⟩

/-- Operand form XK, and the form of SHR and SHL that names X alone: read port A (R51, R71). -/
def State.latchX (s : State) (x : Reg) : Byte := s.reg x

/-- Operand form A: the 12-bit address zero-extended to the width of `pc`, `zext_16(ADDR)` (R50). -/
def targetOf (a : Addr) : Word := a.zeroExtend 16

end Sys2Proof.Machine
end

