-- ==== Sys2Proof/Machine/Flags.lean ====
section
/-!
DEFINITION. The flag values, one for each row of R26 (spec/10_state.md), and the conditions of the skips
(spec/40_datapath.md R75). All comparisons are unsigned (R9, C12).
-/

namespace Sys2Proof.Machine

/-- Carry of ADDR: `bool(a + b > 255)`, the sum exact (R26, R95). -/
def carryFlag (a b : Byte) : Bool := decide (a.toNat + b.toNat > 255)

/-- Not-borrow of SUB and, with the operands exchanged, of SUBN: `bool(a > b)`, strict (R26, R96, R98). -/
def notBorrowFlag (a b : Byte) : Bool := decide (a.toNat > b.toNat)

/-- The bit SHR shifts out: `a & 1` (R26, R97). -/
def shiftedOutRight (a : Byte) : Bool := decide (a &&& 1 = 1)

/-- The bit SHL shifts out: `(a >> 7) & 1` (R26, R99). -/
def shiftedOutLeft (a : Byte) : Bool := decide ((a >>> 7) &&& 1 = 1)

/-- The comparator: `bool(a = c)` (R75). It writes no register and no flag. -/
def equalTo (a c : Byte) : Bool := decide (a = c)

end Sys2Proof.Machine
end

