-- ==== Sys2Proof/Machine/Arith.lean ====
section
/-!
DEFINITION. ADDR, SUB, SHR, SUBN and SHL: the group-8 instructions that write the flag
(spec/44_alu_register.md R95 to R99). The operands are latched, then VF is written, then the result, so with X = 15
the result stands in VF (R72, D11). Log 9.
-/

namespace Sys2Proof.Machine

/-- The write-back of a flag-writing instruction: the flag port first, the result port second (R72). -/
def State.writeBack (s : State) (x : Reg) (flag : Bool) (res : Byte) : State := (s.setFlag flag).setReg x res

/-- ADDR (R95): the sum modulo 256, VF the carry. -/
def execAddr (x y : Reg) (s : State) : Host.Outcome State Fault Refusal :=
  complete s fun t =>
    let o := t.latchXY x y
    t.writeBack x (carryFlag o.a o.b) (o.a + o.b)

/-- SUB (R96): `a - b` modulo 256, VF is 1 when `a > b`. -/
def execSub (x y : Reg) (s : State) : Host.Outcome State Fault Refusal :=
  complete s fun t =>
    let o := t.latchXY x y
    t.writeBack x (notBorrowFlag o.a o.b) (o.a - o.b)

/-- SHR (R97): a logical shift right by one, VF the old bit 0. The field Y is ignored (R54). -/
def execShr (x : Reg) (s : State) : Host.Outcome State Fault Refusal :=
  complete s fun t =>
    let a := t.latchX x
    t.writeBack x (shiftedOutRight a) (a >>> 1)

/-- SUBN (R98): `b - a` modulo 256, VF is 1 when `b > a`. -/
def execSubn (x y : Reg) (s : State) : Host.Outcome State Fault Refusal :=
  complete s fun t =>
    let o := t.latchXY x y
    t.writeBack x (notBorrowFlag o.b o.a) (o.b - o.a)

/-- SHL (R99): a shift left by one modulo 256, VF the old bit 7. The field Y is ignored (R54). -/
def execShl (x : Reg) (s : State) : Host.Outcome State Fault Refusal :=
  complete s fun t =>
    let a := t.latchX x
    t.writeBack x (shiftedOutLeft a) (a <<< 1)

end Sys2Proof.Machine
end

