-- ==== Sys2Proof/Machine/Control.lean ====
section
/-!
DEFINITION. JP, CALL, SE, SNE and SER: the instructions that choose the next program counter
(spec/41_control_transfer.md R81, R82; spec/42_skip.md R86 to R88). Every meaning is applied to the state before
the step, whose `pc` is the fetch address, and its pseudocode runs on the advanced state (`complete`, `transact`).
Log 2.
-/

namespace Sys2Proof.Machine

/-- JP (R81): `pc <- zext_16(ADDR)`. -/
def execJp (a : Addr) (s : State) : Host.Outcome State Fault Refusal :=
  complete s fun t => t.jump (targetOf a)

/-- CALL (R82): the overflow check, the push of the advanced `pc`, then the jump. -/
def execCall (a : Addr) (s : State) : Host.Outcome State Fault Refusal :=
  transact s fun t =>
    if t.stackFull then .error .stackOverflow
    else .ok ((t.push t.pc).jump (targetOf a))

/-- SE (R86): skip when `x[X] = KK`. -/
def execSe (x : Reg) (kk : Byte) (s : State) : Host.Outcome State Fault Refusal :=
  complete s fun t => t.skipIf (equalTo (t.latchX x) kk)

/-- SNE (R87): skip when `x[X]` differs from KK. -/
def execSne (x : Reg) (kk : Byte) (s : State) : Host.Outcome State Fault Refusal :=
  complete s fun t => t.skipIf (!equalTo (t.latchX x) kk)

/-- SER (R88): skip when `x[X] = x[Y]`. -/
def execSer (x y : Reg) (s : State) : Host.Outcome State Fault Refusal :=
  complete s fun t =>
    let o := t.latchXY x y
    t.skipIf (equalTo o.a o.b)

end Sys2Proof.Machine
end

