-- ==== Sys2Proof/Machine/Immediate.lean ====
section
/-!
DEFINITION. LD and ADD, the instructions that take an immediate into a register (spec/43_immediate.md R89, R90).
Neither writes a flag (R26, C5).
-/

namespace Sys2Proof.Machine

/-- LD (R89): `x[X] <- KK`. -/
def execLd (x : Reg) (kk : Byte) (s : State) : Host.Outcome State Fault Refusal :=
  complete s fun t => t.setReg x kk

/-- ADD (R90): `x[X] <- (x[X] + KK) mod 256`, with no carry written. -/
def execAdd (x : Reg) (kk : Byte) (s : State) : Host.Outcome State Fault Refusal :=
  complete s fun t => t.setReg x (t.latchX x + kk)

end Sys2Proof.Machine
end

