-- ==== Sys2Proof/Machine/Logic.lean ====
section
/-!
DEFINITION. LDR, OR, AND and XOR: the group-8 instructions that write no flag (spec/44_alu_register.md R91 to R94).
-/

namespace Sys2Proof.Machine

/-- LDR (R91): `x[X] <- x[Y]`. -/
def execLdr (x y : Reg) (s : State) : Host.Outcome State Fault Refusal :=
  complete s fun t => t.setReg x (t.latchXY x y).b

/-- OR (R92): `x[X] <- x[X] | x[Y]`. -/
def execOr (x y : Reg) (s : State) : Host.Outcome State Fault Refusal :=
  complete s fun t =>
    let o := t.latchXY x y
    t.setReg x (o.a ||| o.b)

/-- AND (R93): `x[X] <- x[X] & x[Y]`. -/
def execAnd (x y : Reg) (s : State) : Host.Outcome State Fault Refusal :=
  complete s fun t =>
    let o := t.latchXY x y
    t.setReg x (o.a &&& o.b)

/-- XOR (R94): `x[X] <- x[X] ^ x[Y]`. -/
def execXor (x y : Reg) (s : State) : Host.Outcome State Fault Refusal :=
  complete s fun t =>
    let o := t.latchXY x y
    t.setReg x (o.a ^^^ o.b)

end Sys2Proof.Machine
end

