-- ==== Sys2Proof/Machine/Dispatch.lean ====
section
/-!
DEFINITION. Execute(d) of spec/40_datapath.md R67: one arm for each instruction, applied to the state before the
step.
-/

namespace Sys2Proof.Machine

def exec (i : Instr) (s : State) : Host.Outcome State Fault Refusal :=
  match i with
  | .jp a => Sys2Proof.Machine.execJp a s
  | .call a => Sys2Proof.Machine.execCall a s
  | .se x kk => Sys2Proof.Machine.execSe x kk s
  | .sne x kk => Sys2Proof.Machine.execSne x kk s
  | .ser x y => Sys2Proof.Machine.execSer x y s
  | .ld x kk => Sys2Proof.Machine.execLd x kk s
  | .add x kk => Sys2Proof.Machine.execAdd x kk s
  | .ldr x y => Sys2Proof.Machine.execLdr x y s
  | .or x y => Sys2Proof.Machine.execOr x y s
  | .and x y => Sys2Proof.Machine.execAnd x y s
  | .xor x y => Sys2Proof.Machine.execXor x y s
  | .addr x y => Sys2Proof.Machine.execAddr x y s
  | .sub x y => Sys2Proof.Machine.execSub x y s
  | .shr x => Sys2Proof.Machine.execShr x s
  | .subn x y => Sys2Proof.Machine.execSubn x y s
  | .shl x => Sys2Proof.Machine.execShl x s

end Sys2Proof.Machine
end

