-- ==== Sys2Proof/Machine/Cycle.lean ====
section
/-!
DEFINITION. The Cycle Driver's step (spec/40_datapath.md R67): fetch, decode and dispatch, or raise.
-/

namespace Sys2Proof.Machine

/-- Decode and execute a fetched word (R67): a word with no handler raises `UnimplementedOpcode` (R56). -/
def dispatchWord (w : Word) (s : State) : Host.Outcome State Fault Refusal :=
  match decode w with
  | .ok i => exec i s
  | .error _ => .next (s.raise (.unimplementedOpcode w))

/-- One step request (R67, R80): nothing while halted (R107, D7); otherwise the bounds check, the fetch, and the
fetched word. The order of the checks is that of R106. -/
def cycle (s : State) : Host.Outcome State Fault Refusal :=
  if s.halted then .next s
  else if s.fetchInBounds then
    match s.fetchWord with
    | .ok w => dispatchWord w s
    | .error r => .fault r
  else .next (s.raise .outOfBoundsFetch)

/-- An opcode-table word placed for the next fetch (log 5): the bits above `nbits` are zero. -/
def State.placeTableWord (s : State) (nbits w : Nat) : State := s.placeWord (BitVec.ofNat 16 (w % 2 ^ nbits))

end Sys2Proof.Machine
end

