-- ==== Sys2Proof/Machine/Step.lean ====
section
/-!
DEFINITION. One step of the block, and the host's way to place an instruction for it.
-/

namespace Sys2Proof.Machine

/-- One step of the block (R12, R67). -/
def step (s : State) : Host.Outcome State Fault Refusal := cycle s

/-- The state with an instruction of the opcode table stored where `step` fetches next (log 5). -/
def State.withFetchWord (s : State) (nbits w : Nat) : State := s.placeTableWord nbits w

end Sys2Proof.Machine
end

