-- ==== Sys2Proof/Machine/Agents.lean ====
section
/-!
DEFINITION. The block's interface and the agents around it: the host with its loader, the timer ticker, and the
observers (spec/40_datapath.md R65, R66; spec/60_exceptions.md R109, R113; spec/70_reset_and_hazards.md R118 to
R121, R125). Every action falls between two steps, because a step is one action (R44).
-/

namespace Sys2Proof.Machine

/-- How far the host is in the boot sequence of R119. It is no state of the block (R30). Log 7. -/
inductive Phase where
  /-- Reset is done (step 1). -/
  | afterReset
  /-- The program is in memory at this load offset (step 2). -/
  | afterLoad (offset : Addr)
  /-- `pc` is set (step 3) and no step has been requested. -/
  | ready
  /-- A step has been requested: the boot port is closed (R65). -/
  | running
  deriving DecidableEq, Repr

/-- The block and the phase of its boot. -/
structure System where
  block : State
  phase : Phase
  deriving DecidableEq, Repr

/-- The block after its first reset. -/
def System.initial : System := ⟨State.reset, .afterReset⟩

/-- What an external agent may do, the rows of R121. -/
inductive AgentAction where
  /-- The host resets the block. -/
  | reset
  /-- The ROM loader copies the program to the load offset. -/
  | load (l : Launch)
  /-- The host sets `pc` to the load offset. -/
  | setPc
  /-- The host requests one step. -/
  | step
  /-- The host stops stepping; it may step again (R109). -/
  | cancel
  /-- The host reads the fault latch. -/
  | readFault
  /-- The ticker decrements the delay timer. -/
  | tickDelay
  /-- The ticker decrements the sound timer. -/
  | tickSound
  /-- The display or the input poller reads a snapshot. -/
  | observe
  deriving DecidableEq, Repr

/-- The loader's copy (R119 step 2). -/
def State.loadProgram (s : State) (l : Launch) : State := { s with mem := s.mem.writeBytes l.offset.toNat l.rom }

/-- The ticker's decrement of `DT` (R22, R113), by the rule the spec leaves open. -/
def State.tickDelay (s : State) : State := { s with dt := Config.timerDecrement s.dt }

/-- The ticker's decrement of `ST` (R22, R113), by the rule the spec leaves open. -/
def State.tickSound (s : State) : State := { s with st := Config.timerDecrement s.st }

/-- The load action: at boot step 2 only, and only a program that fits (R119, R121). -/
def System.load (y : System) (l : Launch) : Host.Outcome System Fault Refusal :=
  match y.phase with
  | .afterReset => if l.wellFormed then .next ⟨y.block.loadProgram l, .afterLoad l.offset⟩ else .refused .invalidLaunch
  | .afterLoad _ => .refused .hostActionNotAllowed
  | .ready => .refused .hostActionNotAllowed
  | .running => .refused .hostActionNotAllowed

/-- The `pc` write: at boot step 3 only, to the load offset (R119, R121). -/
def System.setPc (y : System) : Host.Outcome System Fault Refusal :=
  match y.phase with
  | .afterLoad offset => .next ⟨y.block.jump (targetOf offset), .ready⟩
  | .afterReset => .refused .hostActionNotAllowed
  | .ready => .refused .hostActionNotAllowed
  | .running => .refused .hostActionNotAllowed

/-- The step request (R80). A host that steps before the boot sequence is done runs from where `pc` is (R119). -/
def System.stepBlock (y : System) : Host.Outcome System Fault Refusal :=
  match step y.block with
  | .next t => .next ⟨t, .running⟩
  | .fault r => .fault r
  | .refused r => .refused r

/-- One action of an external agent (R121). Reading changes nothing. -/
def System.act (y : System) (a : AgentAction) : Host.Outcome System Fault Refusal :=
  match a with
  | .reset => .next System.initial
  | .load l => y.load l
  | .setPc => y.setPc
  | .step => y.stepBlock
  | .cancel => .next y
  | .readFault => .next y
  | .tickDelay => .next { y with block := y.block.tickDelay }
  | .tickSound => .next { y with block := y.block.tickSound }
  | .observe => .next y

/-- A sequence of actions, stopping at the first that is refused. -/
def System.acts (y : System) : List AgentAction → Host.Outcome System Fault Refusal
  | [] => .next y
  | a :: as =>
    match y.act a with
    | .next z => System.acts z as
    | .fault r => .fault r
    | .refused r => .refused r

/-- The boot sequence of R119, up to the first step. -/
def bootSequence (l : Launch) : List AgentAction := [.reset, .load l, .setPc]

/-- The output signals `halted`, `fault_kind`, `fault_word` and `fault_pc` (R65). -/
structure Outputs where
  halted : Bool
  faultKind : BitVec 3
  faultWord : Word
  faultPc : Word
  deriving DecidableEq, Repr

/-- The outputs the host reads (R28, R65). -/
def State.outputs (s : State) : Outputs := ⟨s.halted, s.fault.kind.code, s.fault.word, s.fault.pc⟩

/-- The read-only state view of R65. -/
structure StateView where
  x : Vector Byte 16
  pc : Word
  sp : BitVec 5
  stack : Vector Word 16
  i : Word
  dt : Byte
  st : Byte
  deriving DecidableEq, Repr

/-- What the state view shows (R65). -/
def State.view (s : State) : StateView := ⟨s.v, s.pc, s.sp, s.stack, s.i, s.dt, s.st⟩

/-- The addresses a step drives on `mem_addr`, in order: `f`, then `f + 1`; none when it does not fetch
(R65, R67). -/
def State.fetchAddresses (s : State) : List Addr :=
  if s.halted then []
  else if s.fetchInBounds then [s.pc.setWidth 12, s.pc.setWidth 12 + 1]
  else []

end Sys2Proof.Machine
end

