-- ==== Sys2Proof/Machine/Datapath.lean ====
section
/-!
DEFINITION. The block a second time, as a datapath: the two-level dispatcher gives control signals, and the register
file, the ALU, the comparator, the stack unit and the next-PC multiplexer act on them (spec/40_datapath.md R69 to
R76). It reads the word's fields directly and never builds an `Instr`. "This table is the datapath form of the
instruction rules" (R76): that the two agree is a statement about the model.
-/

namespace Sys2Proof.Machine

/-- The ALU operations of R74. -/
inductive AluOp where
  | passK | addK | passB | or | and | xor | add | sub | shr | subn | shl
  deriving DecidableEq, Repr

/-- An exact integer modulo 256 (R9, R73). -/
def narrow (n : Int) : Byte := BitVec.ofInt 8 n

/-- The ALU's output `res` (R74): exact arithmetic on the inputs, then modulo 256. -/
def aluRes (op : AluOp) (a b k : Byte) : Byte :=
  match op with
  | .passK => k
  | .addK => narrow (a.toNat + k.toNat : Int)
  | .passB => b
  | .or => a ||| b
  | .and => a &&& b
  | .xor => a ^^^ b
  | .add => narrow (a.toNat + b.toNat : Int)
  | .sub => narrow (a.toNat - b.toNat : Int)
  | .shr => narrow (a.toNat / 2 : Int)
  | .subn => narrow (b.toNat - a.toNat : Int)
  | .shl => narrow (a.toNat * 2 : Int)

/-- The ALU's output `flg`, one bit, for the operations R74 lists it for. -/
def aluFlg (op : AluOp) (a b : Byte) : Option (BitVec 1) :=
  match op with
  | .passK => none
  | .addK => none
  | .passB => none
  | .or => none
  | .and => none
  | .xor => none
  | .add => some (BitVec.ofBool (decide (255 < a.toNat + b.toNat)))
  | .sub => some (BitVec.ofBool (b.ult a))
  | .shr => some (a.extractLsb' 0 1)
  | .subn => some (BitVec.ofBool (a.ult b))
  | .shl => some (a.extractLsb' 7 1)

/-- The `PC select` column of R76. -/
inductive PcControl where
  | seq | target | skipIfEq | skipUnlessEq
  deriving DecidableEq, Repr

/-- The `compare` column of R76: what the comparator holds `a` against. -/
inductive CompareWith where
  | k | b
  deriving DecidableEq, Repr

/-- The control signals of an instruction, a row of R76; `none` is the table's "not used". -/
structure ControlSignals where
  op : Option AluOp
  regWe : Bool
  flagWe : Bool
  pcControl : PcControl
  stackPush : Bool
  compare : Option CompareWith
  deriving DecidableEq, Repr

/-- A row of R76 whose only effect is a result in `x[X]`. -/
def resultOnly (op : AluOp) : ControlSignals := ⟨some op, true, false, .seq, false, none⟩

/-- A row of R76 that writes the flag and a result. -/
def resultAndFlag (op : AluOp) : ControlSignals := ⟨some op, true, true, .seq, false, none⟩

/-- Level 2 of the dispatcher with the rows of R76: it selects on N (R53). -/
def controlLevel2 (n : Nibble) : Option ControlSignals :=
  match n with
  | 0x0#4 => some (resultOnly .passB)
  | 0x1#4 => some (resultOnly .or)
  | 0x2#4 => some (resultOnly .and)
  | 0x3#4 => some (resultOnly .xor)
  | 0x4#4 => some (resultAndFlag .add)
  | 0x5#4 => some (resultAndFlag .sub)
  | 0x6#4 => some (resultAndFlag .shr)
  | 0x7#4 => some (resultAndFlag .subn)
  | 0xE#4 => some (resultAndFlag .shl)
  | _ => none

/-- Level 1 of the dispatcher with the rows of R76: it selects on G, and asks level 2 for G = 8 only (R52, R53). -/
def controlLevel1 (g n : Nibble) : Option ControlSignals :=
  match g with
  | 0x1#4 => some ⟨none, false, false, .target, false, none⟩
  | 0x2#4 => some ⟨none, false, false, .target, true, none⟩
  | 0x3#4 => some ⟨none, false, false, .skipIfEq, false, some .k⟩
  | 0x4#4 => some ⟨none, false, false, .skipUnlessEq, false, some .k⟩
  | 0x5#4 => some ⟨none, false, false, .skipIfEq, false, some .b⟩
  | 0x6#4 => some (resultOnly .passK)
  | 0x7#4 => some (resultOnly .addK)
  | 0x8#4 => controlLevel2 n
  | _ => none

/-- The control signals of a word; none where no handler is registered (R52, R53, R56). -/
def controlOf (w : Word) : Option ControlSignals := controlLevel1 (fieldG w) (fieldN w)

/-- The register file after the write ports: F writes VF first, R writes `x[X]` second (R72). -/
def writePorts (c : ControlSignals) (x : Reg) (a b k : Byte) (v : Vector Byte 16) : Vector Byte 16 :=
  match c.op with
  | none => v
  | some op =>
    let flagged := match c.flagWe, aluFlg op a b with
      | true, some flg => v.set 15 (flg.zeroExtend 8)
      | _, _ => v
    if c.regWe then flagged.set x (aluRes op a b k) else flagged

/-- The comparator's output `eq` (R75). -/
def comparatorEq (c : ControlSignals) (a b k : Byte) : Bool :=
  match c.compare with
  | none => false
  | some .k => a == k
  | some .b => a == b

/-- The next-PC multiplexer (R69, R70): `SEQ`, `SKIP` or `TARGET`. -/
def nextPc (c : ControlSignals) (eq : Bool) (f : Word) (target : Addr) : Word :=
  match c.pcControl, eq with
  | .target, _ => target.zeroExtend 16
  | .seq, _ => f + 2
  | .skipIfEq, true => f + 4
  | .skipIfEq, false => f + 2
  | .skipUnlessEq, true => f + 2
  | .skipUnlessEq, false => f + 4

/-- What a step commits for a word with the given control signals (R68), or the raised error: `full` is asked
before the push (R83). -/
def datapathCommit (c : ControlSignals) (w : Word) (s : State) : State :=
  let x := regOf (fieldX w)
  let a := s.v.get x
  let b := s.v.get (regOf (fieldY w))
  let k := fieldKK w
  let moved : State :=
    { s with
      v := writePorts c x a b k s.v
      pc := nextPc c (comparatorEq c a b k) s.pc (fieldADDR w) }
  if c.stackPush then
    if s.stackFull then s.raise .stackOverflow
    else { moved with stack := s.stack.setIfInBounds s.sp.toNat (s.pc + 2), sp := s.sp + 1 }
  else moved

/-- The datapath on a fetched word (R67): no control signals, no handler. -/
def datapathWord (w : Word) (s : State) : State :=
  match controlOf w with
  | some c => datapathCommit c w s
  | none => s.raise (.unimplementedOpcode w)

/-- One step request of the datapath (R67, R80). -/
def datapathStep (s : State) : Host.Outcome State Fault Refusal :=
  if s.halted then .next s
  else if s.fetchInBounds then
    match s.fetchWord with
    | .ok w => .next (datapathWord w s)
    | .error r => .fault r
  else .next (s.raise .outOfBoundsFetch)

end Sys2Proof.Machine
end

