-- ==== Sys2Proof/Safety.lean ====
section
/-!
DEFINITION. What counts as a safe run, the invariants of the machine, and the frames claims are stated with.
-/

namespace Sys2Proof.Machine

/-- A run of `n` steps with no error: "The fault latch must be NONE in every such state" (R120). -/
def SafeFor (n : Nat) (s : State) : Prop :=
  ∀ k, k ≤ n → ∃ t, Sys2Proof.core.run k s = .next t ∧ t.fault.kind = .none

/-- The invariants that hold between steps (R33) with what CALL saves (R82) and the canonical form of memory.
`sp` is at most 16, `pc` at most 0x1002, every occupied stack entry at most 0x1000. -/
structure State.Inv (s : State) : Prop where
  spLegal : s.sp.toNat ≤ 16
  pcBound : s.pc.toNat ≤ 0x1002
  savedBound : ∀ j : Fin 16, j.val < s.sp.toNat → (s.entry j).toNat ≤ 0x1000
  memWf : s.mem.wf

/-- What a latched error says of the state that holds it, since an error commits nothing else and the block then
stays as it is (R68, R101, R103, R107). -/
def State.LatchInv (s : State) : Prop :=
  match s.fault.kind with
  | .none => s.fault = FaultLatch.clear
  | .unimplementedOpcode =>
    s.fault.pc = s.pc ∧ s.fetchWord = .ok s.fault.word ∧ decode s.fault.word = .error (.unimplemented s.fault.word)
  | .stackOverflow =>
    s.fault.pc = s.pc ∧ s.fault.word = 0 ∧ 16 ≤ s.sp.toNat ∧
      ∃ w a, s.fetchWord = .ok w ∧ decode w = .ok (.call a)
  | .stackUnderflow => False
  | .outOfBoundsFetch => s.fault.pc = s.pc ∧ s.fault.word = 0 ∧ 0xFFE < s.pc.toNat

/-- The invariant of the block among its agents: until the first step the latch is clear (R119). -/
structure System.Inv (y : System) : Prop where
  block : y.block.Inv
  latch : y.block.LatchInv
  bootClear : y.phase ≠ .running → y.block.fault = FaultLatch.clear

/-- Every byte of memory reads as before. -/
def State.SameMemory (s t : State) : Prop := ∀ a, t.mem.read a = s.mem.read a

/-- The stack pointer and every stack entry are as before. -/
def State.SameStack (s t : State) : Prop := t.sp = s.sp ∧ ∀ j, t.entry j = s.entry j

/-- Every general register is as before. -/
def State.SameRegs (s t : State) : Prop := ∀ r, t.reg r = s.reg r

/-- The address register and the timers are as before. -/
def State.SameUnused (s t : State) : Prop := t.i = s.i ∧ t.dt = s.dt ∧ t.st = s.st

/-- All but the general registers and `pc` is as before. -/
def State.OnlyRegsAndPc (s t : State) : Prop :=
  s.SameStack t ∧ s.SameUnused t ∧ s.SameMemory t ∧ t.fault = s.fault

/-- All but `pc` is as before. -/
def State.OnlyPc (s t : State) : Prop := s.SameRegs t ∧ s.OnlyRegsAndPc t

/-- All but the fault latch is as before (R68). -/
def State.OnlyLatch (s t : State) : Prop := { t with fault := s.fault } = s

end Sys2Proof.Machine
end

