-- ==== Sys2Proof/Certificates/Slice0/Obligations.lean ====
section
/-!
DEFINITION. The statements for the provers. `s` is always the state before the step, so `s.pc` is the fetch address
`f` of R12 (log 2). Where a statement rests on a decision of the spec itself (92_eei_decisions.md), its docstring
names the decision (logs 9 and 15 to 20).
-/

open Sys2Proof
open Sys2Proof.Machine

/-! ### Reset -/

/-- Reset leaves every element of Machine State zero and the fault latch clear (R31, R118).
The latch's reset value is the spec's decision D6. -/
def Obligations.ResetZeroesEveryElement : Prop :=
  (∀ r, State.reset.reg r = 0) ∧ State.reset.pc = 0 ∧ State.reset.sp = 0 ∧ (∀ j, State.reset.entry j = 0) ∧
    State.reset.i = 0 ∧ State.reset.dt = 0 ∧ State.reset.st = 0 ∧
    (∀ a, a < 4096 → State.reset.mem.read a = .ok 0) ∧ State.reset.fault = ⟨.none, 0, 0⟩

/-- A host that steps right after reset, with nothing loaded, fetches 0x0000 from address 0 and halts (R119).
An inference the spec marks as derived; it rests on D6 and D9. -/
def Obligations.StepFromResetHaltsOnWordZero : Prop :=
  step State.reset = .next { State.reset with fault := ⟨.unimplementedOpcode, 0x0000, 0x0000⟩ }

/-! ### Encoding -/

/-- Words the spec lists, of every group, decode to the instructions it gives for them
(95_test_vectors.md 2.1). -/
def Obligations.ListedWordsDecodeAsTheSpecSays : Prop :=
  decode 0x1FFF = .ok (.jp 0xFFF) ∧ decode 0x2ABC = .ok (.call 0xABC) ∧ decode 0x3123 = .ok (.se 1 0x23) ∧
    decode 0x4123 = .ok (.sne 1 0x23) ∧ decode 0x512F = .ok (.ser 1 2) ∧ decode 0x6123 = .ok (.ld 1 0x23) ∧
    decode 0x7123 = .ok (.add 1 0x23) ∧ decode 0x8120 = .ok (.ldr 1 2) ∧ decode 0x812E = .ok (.shl 1) ∧
    decode 0x00EE = .error (.unimplemented 0x00EE) ∧ decode 0x8128 = .error (.unimplemented 0x8128) ∧
    decode 0xF165 = .error (.unimplemented 0xF165)

/-- The decode function of R55, with every field at every value: the words are written as their nibbles. -/
def Obligations.DecodeIsTheDispatchersCase : Prop :=
  (∀ a : Addr, decode (0x1#4 ++ a) = .ok (.jp a)) ∧
  (∀ a : Addr, decode (0x2#4 ++ a) = .ok (.call a)) ∧
  (∀ (x : Nibble) (kk : Byte), decode (0x3#4 ++ x ++ kk) = .ok (.se x.toFin kk)) ∧
  (∀ (x : Nibble) (kk : Byte), decode (0x4#4 ++ x ++ kk) = .ok (.sne x.toFin kk)) ∧
  (∀ x y n : Nibble, decode (0x5#4 ++ x ++ y ++ n) = .ok (.ser x.toFin y.toFin)) ∧
  (∀ (x : Nibble) (kk : Byte), decode (0x6#4 ++ x ++ kk) = .ok (.ld x.toFin kk)) ∧
  (∀ (x : Nibble) (kk : Byte), decode (0x7#4 ++ x ++ kk) = .ok (.add x.toFin kk)) ∧
  (∀ x y : Nibble, decode (0x8#4 ++ x ++ y ++ 0x0#4) = .ok (.ldr x.toFin y.toFin)) ∧
  (∀ x y : Nibble, decode (0x8#4 ++ x ++ y ++ 0x1#4) = .ok (.or x.toFin y.toFin)) ∧
  (∀ x y : Nibble, decode (0x8#4 ++ x ++ y ++ 0x2#4) = .ok (.and x.toFin y.toFin)) ∧
  (∀ x y : Nibble, decode (0x8#4 ++ x ++ y ++ 0x3#4) = .ok (.xor x.toFin y.toFin)) ∧
  (∀ x y : Nibble, decode (0x8#4 ++ x ++ y ++ 0x4#4) = .ok (.addr x.toFin y.toFin)) ∧
  (∀ x y : Nibble, decode (0x8#4 ++ x ++ y ++ 0x5#4) = .ok (.sub x.toFin y.toFin)) ∧
  (∀ x y : Nibble, decode (0x8#4 ++ x ++ y ++ 0x6#4) = .ok (.shr x.toFin)) ∧
  (∀ x y : Nibble, decode (0x8#4 ++ x ++ y ++ 0x7#4) = .ok (.subn x.toFin y.toFin)) ∧
  (∀ x y : Nibble, decode (0x8#4 ++ x ++ y ++ 0xE#4) = .ok (.shl x.toFin)) ∧
  (∀ x y n : Nibble, n ∈ [0x8#4, 0x9#4, 0xA#4, 0xB#4, 0xC#4, 0xD#4, 0xF#4] →
    decode (0x8#4 ++ x ++ y ++ n) = .error (.unimplemented (0x8#4 ++ x ++ y ++ n))) ∧
  (∀ g x y n : Nibble, g ∈ [0x0#4, 0x9#4, 0xA#4, 0xB#4, 0xC#4, 0xD#4, 0xE#4, 0xF#4] →
    decode (g ++ x ++ y ++ n) = .error (.unimplemented (g ++ x ++ y ++ n)))

/-- Decoding an encoded instruction gives it back, with every operand at every value (R51, R55).
Every `Instr` is well formed (log 4). -/
def Obligations.DecodeOfEncodeIsTheInstruction : Prop := ∀ i, decode (encode i) = .ok i

/-- Encoding a decoded word gives the word back but for the fields the instruction ignores, which become 0
(R54; 0 in an ignored field is the spec's decision D15). -/
def Obligations.EncodeOfDecodeIsTheWordLessIgnoredFields : Prop :=
  ∀ w i, decode w = .ok i → encode i = w &&& heededBits i

/-- The decoder and the mask-and-match table agree (R56, R60): a word decodes exactly when a row has it, then to an
instruction of that row, and no word belongs to two rows. -/
def Obligations.DecoderAgreesWithOpcodeTable : Prop :=
  (∀ w, (∃ i, decode w = .ok i) ↔ ∃ r ∈ opcodeTable, r.has w = true) ∧
    (∀ w i, decode w = .ok i → (opcodeRow i).has w = true) ∧
    ∀ w r r', r ∈ opcodeTable → r' ∈ opcodeTable → r.has w = true → r'.has w = true → r = r'

/-! ### The step -/

/-- When the bytes at `pc` and `pc + 1` decode to an instruction, the step of a block that is not halted is that
instruction's meaning at that state; `exec` itself advances `pc` (R67).
The first byte is the more significant: the spec's decision D2 (R37). -/
def Obligations.StepRunsTheDecodedInstruction : Prop :=
  ∀ (s : State) (hi lo : Byte) (i : Instr), s.fault.kind = .none → s.pc.toNat ≤ 0xFFE →
    s.mem.read s.pc.toNat = .ok hi → s.mem.read (s.pc.toNat + 1) = .ok lo → decode (hi ++ lo) = .ok i →
    step s = exec i s

/-- A fetch address above 0xFFE raises `OutOfBoundsFetch`: the latch holds kind 4, word 0 and the address, and
nothing else changes (R39, R103, R104). The bound at 0xFFF is the spec's decision D3, the latch its decision D6. -/
def Obligations.FetchPastMemoryRaisesOutOfBounds : Prop :=
  ∀ s : State, s.fault.kind = .none → 0xFFE < s.pc.toNat →
    step s = .next { s with fault := ⟨.outOfBoundsFetch, 0, s.pc⟩ }

/-- A fetched word with no handler raises `UnimplementedOpcode`: the latch holds the raw word and its address, and
nothing else changes (R56, R103, R104). The byte order is the spec's decision D2, the latch its decision D6. -/
def Obligations.IllegalWordRaisesUnimplementedOpcode : Prop :=
  ∀ (s : State) (hi lo : Byte) (e : DecodeError), s.fault.kind = .none → s.pc.toNat ≤ 0xFFE →
    s.mem.read s.pc.toNat = .ok hi → s.mem.read (s.pc.toNat + 1) = .ok lo → decode (hi ++ lo) = .error e →
    step s = .next { s with fault := ⟨.unimplementedOpcode, hi ++ lo, s.pc⟩ }

/-- While the latch holds an error no number of step requests changes anything (R80, R107; the spec's decision
D7). -/
def Obligations.HaltedBlockNeverChanges : Prop :=
  ∀ (n : Nat) (s : State), s.fault.kind ≠ .none → Sys2Proof.core.run n s = .next s

/-- Every step request has one of three outcomes (R80, R68): completed, with the fault latch as before; an error,
with the latch set and nothing else changed; or no step. The model never stops in any of them.
What an error leaves is the spec's decision D6, the third outcome its decision D7. -/
def Obligations.StepHasThreeOutcomes : Prop :=
  ∀ s : State, ∃ t, step s = .next t ∧
    ((s.fault.kind = .none ∧ t.fault = s.fault ∧
        ∃ w i, s.fetchWord = .ok w ∧ decode w = .ok i ∧ exec i s = .next t) ∨
      (s.fault.kind = .none ∧ t.fault.kind ≠ .none ∧ t.fault.pc = s.pc ∧ s.OnlyLatch t) ∨
      (s.fault.kind ≠ .none ∧ t = s))

/-- Which error a step raises, and when (R101, R106). The fetch bound is the spec's decision D3, `sp >= 16` its
decision D14, and that nothing reaches `StackUnderflow` its decision D10. -/
def Obligations.ErrorsHaveExactlyTheirCauses : Prop :=
  ∀ s t : State, s.fault.kind = .none → step s = .next t →
    (t.fault.kind = .outOfBoundsFetch ↔ 0xFFE < s.pc.toNat) ∧
    (t.fault.kind = .unimplementedOpcode ↔
      s.pc.toNat ≤ 0xFFE ∧ ∃ w e, s.fetchWord = .ok w ∧ decode w = .error e) ∧
    (t.fault.kind = .stackOverflow ↔
      s.pc.toNat ≤ 0xFFE ∧ 16 ≤ s.sp.toNat ∧ ∃ w a, s.fetchWord = .ok w ∧ decode w = .ok (.call a)) ∧
    t.fault.kind ≠ .stackUnderflow

/-- What the host reads on the outputs after each error, and while there is none (R65, R102, R103).
The numbers are the spec's decision D8. -/
def Obligations.OutputsShowTheLatchedError : Prop :=
  ∀ (s : State) (w : Word),
    (s.raise (.unimplementedOpcode w)).outputs = ⟨true, 1, w, s.pc⟩ ∧
    (s.raise .stackOverflow).outputs = ⟨true, 2, 0, s.pc⟩ ∧
    (s.raise .stackUnderflow).outputs = ⟨true, 3, 0, s.pc⟩ ∧
    (s.raise .outOfBoundsFetch).outputs = ⟨true, 4, 0, s.pc⟩ ∧
    (s.fault.kind = .none → s.outputs = ⟨false, 0, s.fault.word, s.fault.pc⟩)

/-! ### What each instruction does, and its frame -/

/-- JP completes: `pc` becomes the address zero-extended and nothing else changes; a jump to itself changes nothing
at all (R81). -/
def Obligations.JpReplacesPc : Prop :=
  ∀ (a : Addr) (s : State), ∃ t, exec (.jp a) s = .next t ∧ t.pc = a.zeroExtend 16 ∧ s.OnlyPc t ∧
    (a.zeroExtend 16 = s.pc → t = s)

/-- CALL completes while an entry is free: the return address `f + 2` goes to `stack[sp]` and to no other entry,
`sp` rises by one, `pc` becomes the address zero-extended, and no register, memory byte, timer or latch changes.
A full stack raises `StackOverflow` (R83). -/
def Obligations.CallPushesReturnAddress : Prop :=
  (∀ s : State, (s.sp.toNat = 16 → s.stackFull = true) ∧ (s.sp.toNat < 16 → s.stackFull = false) ∧
    (s.stackEmpty = true ↔ s.sp.toNat = 0)) ∧
  (∀ (a : Addr) (s : State), s.sp.toNat < 16 → ∃ t, exec (.call a) s = .next t ∧
    t.pc = a.zeroExtend 16 ∧ t.sp.toNat = s.sp.toNat + 1 ∧
    (∀ j : Fin 16, t.entry j = if j.val = s.sp.toNat then s.pc + 2 else s.entry j) ∧
    s.SameRegs t ∧ s.SameUnused t ∧ s.SameMemory t ∧ t.fault = s.fault) ∧
  ∀ (a : Addr) (s : State), s.sp.toNat = 16 → ∃ t, exec (.call a) s = .next t ∧ t.fault.kind = .stackOverflow

/-- CALL with `sp >= 16` raises `StackOverflow` and commits nothing: the latch holds kind 2, word 0 and the address
of the CALL, and all else, `pc` included, is as before (R82). The test for the values above 16 is the spec's
decision D14, what an error leaves its decision D6. -/
def Obligations.CallOnFullStackRaisesStackOverflow : Prop :=
  ∀ (a : Addr) (s : State), 16 ≤ s.sp.toNat →
    exec (.call a) s = .next { s with fault := ⟨.stackOverflow, 0, s.pc⟩ }

/-- SE completes: `pc` becomes `f + 4` when `x[X] = KK` and `f + 2` otherwise, and nothing else changes (R86). -/
def Obligations.SeSkipsOnEqualImmediate : Prop :=
  ∀ (x : Reg) (kk : Byte) (s : State), ∃ t, exec (.se x kk) s = .next t ∧
    t.pc = (if s.reg x = kk then s.pc + 4 else s.pc + 2) ∧ s.OnlyPc t

/-- SNE completes: `pc` becomes `f + 4` when `x[X]` is not KK and `f + 2` otherwise, and nothing else changes
(R87). -/
def Obligations.SneSkipsOnUnequalImmediate : Prop :=
  ∀ (x : Reg) (kk : Byte) (s : State), ∃ t, exec (.sne x kk) s = .next t ∧
    t.pc = (if s.reg x ≠ kk then s.pc + 4 else s.pc + 2) ∧ s.OnlyPc t

/-- SER completes: `pc` becomes `f + 4` when `x[X] = x[Y]` and `f + 2` otherwise, and nothing else changes
(R88). -/
def Obligations.SerSkipsOnEqualRegisters : Prop :=
  ∀ (x y : Reg) (s : State), ∃ t, exec (.ser x y) s = .next t ∧
    t.pc = (if s.reg x = s.reg y then s.pc + 4 else s.pc + 2) ∧ s.OnlyPc t

/-- LD (R89): every word of `6xkk` is LD; it completes with `x[X] = KK` and `pc = f + 2`, every other register, VF
among them, and all else as before. -/
def Obligations.LdLoadsImmediate : Prop :=
  (∀ w : Word, w &&& 0xF000 = 0x6000 → decode w = .ok (.ld (regOf (fieldX w)) (fieldKK w))) ∧
  ∀ (x : Reg) (kk : Byte) (s : State), ∃ t, exec (.ld x kk) s = .next t ∧
    t.reg x = kk ∧ (∀ r, r ≠ x → t.reg r = s.reg r) ∧ t.pc = s.pc + 2 ∧ s.OnlyRegsAndPc t

/-- ADD (R90): every word of `7xkk` is ADD; it completes with `x[X]` the sum modulo 256 and `pc = f + 2`, every
other register, VF among them, and all else as before. -/
def Obligations.AddWrapsAndWritesNoFlag : Prop :=
  (∀ w : Word, w &&& 0xF000 = 0x7000 → decode w = .ok (.add (regOf (fieldX w)) (fieldKK w))) ∧
  ∀ (x : Reg) (kk : Byte) (s : State), ∃ t, exec (.add x kk) s = .next t ∧
    (t.reg x).toNat = ((s.reg x).toNat + kk.toNat) % 256 ∧ (∀ r, r ≠ x → t.reg r = s.reg r) ∧
    t.pc = s.pc + 2 ∧ s.OnlyRegsAndPc t

/-- LDR (R91): every word of `8xy0` is LDR; it completes with `x[X]` the old `x[Y]` and `pc = f + 2`, every other
register, VF among them, and all else as before. -/
def Obligations.LdrCopiesRegister : Prop :=
  (∀ w : Word, w &&& 0xF00F = 0x8000 → decode w = .ok (.ldr (regOf (fieldX w)) (regOf (fieldY w)))) ∧
  ∀ (x y : Reg) (s : State), ∃ t, exec (.ldr x y) s = .next t ∧
    t.reg x = s.reg y ∧ (∀ r, r ≠ x → t.reg r = s.reg r) ∧ t.pc = s.pc + 2 ∧ s.OnlyRegsAndPc t

/-- OR (R92): every word of `8xy1` is OR; it completes with `x[X]` the bitwise OR and `pc = f + 2`, every other
register, VF among them, and all else as before. -/
def Obligations.OrIsBitwiseAndWritesNoFlag : Prop :=
  (∀ w : Word, w &&& 0xF00F = 0x8001 → decode w = .ok (.or (regOf (fieldX w)) (regOf (fieldY w)))) ∧
  ∀ (x y : Reg) (s : State), ∃ t, exec (.or x y) s = .next t ∧
    t.reg x = s.reg x ||| s.reg y ∧ (∀ r, r ≠ x → t.reg r = s.reg r) ∧ t.pc = s.pc + 2 ∧ s.OnlyRegsAndPc t

/-- AND (R93): every word of `8xy2` is AND; it completes with `x[X]` the bitwise AND and `pc = f + 2`, every other
register, VF among them, and all else as before. -/
def Obligations.AndIsBitwiseAndWritesNoFlag : Prop :=
  (∀ w : Word, w &&& 0xF00F = 0x8002 → decode w = .ok (.and (regOf (fieldX w)) (regOf (fieldY w)))) ∧
  ∀ (x y : Reg) (s : State), ∃ t, exec (.and x y) s = .next t ∧
    t.reg x = s.reg x &&& s.reg y ∧ (∀ r, r ≠ x → t.reg r = s.reg r) ∧ t.pc = s.pc + 2 ∧ s.OnlyRegsAndPc t

/-- XOR (R94): every word of `8xy3` is XOR; it completes with `x[X]` the bitwise exclusive OR and `pc = f + 2`,
every other register, VF among them, and all else as before. -/
def Obligations.XorIsBitwiseAndWritesNoFlag : Prop :=
  (∀ w : Word, w &&& 0xF00F = 0x8003 → decode w = .ok (.xor (regOf (fieldX w)) (regOf (fieldY w)))) ∧
  ∀ (x y : Reg) (s : State), ∃ t, exec (.xor x y) s = .next t ∧
    t.reg x = s.reg x ^^^ s.reg y ∧ (∀ r, r ≠ x → t.reg r = s.reg r) ∧ t.pc = s.pc + 2 ∧ s.OnlyRegsAndPc t

/-- ADDR completes: `x[X]` is the sum modulo 256; VF, unless it is the destination, is 1 when the exact sum exceeds
255 and 0 otherwise; `pc = f + 2`; every other register and all else is as before (R95).
With X or Y = 15 it rests on the spec's decision D11: the operands are read first and the result is written last. -/
def Obligations.AddrSumsWithCarry : Prop :=
  ∀ (x y : Reg) (s : State), ∃ t, exec (.addr x y) s = .next t ∧
    (t.reg x).toNat = ((s.reg x).toNat + (s.reg y).toNat) % 256 ∧
    (x ≠ 15 → t.reg 15 = if 255 < (s.reg x).toNat + (s.reg y).toNat then 0x01 else 0x00) ∧
    (∀ r, r ≠ x → r ≠ 15 → t.reg r = s.reg r) ∧ t.pc = s.pc + 2 ∧ s.OnlyRegsAndPc t

/-- SUB completes: `x[X]` is `a - b` modulo 256; VF, unless it is the destination, is 1 when `a > b` and 0
otherwise; `pc = f + 2`; every other register and all else is as before (R96).
With X or Y = 15 it rests on the spec's decision D11. -/
def Obligations.SubSubtractsWithStrictNotBorrow : Prop :=
  ∀ (x y : Reg) (s : State), ∃ t, exec (.sub x y) s = .next t ∧
    ((t.reg x).toNat : Int) = ((s.reg x).toNat - (s.reg y).toNat : Int) % 256 ∧
    (x ≠ 15 → t.reg 15 = if (s.reg y).toNat < (s.reg x).toNat then 0x01 else 0x00) ∧
    (∀ r, r ≠ x → r ≠ 15 → t.reg r = s.reg r) ∧ t.pc = s.pc + 2 ∧ s.OnlyRegsAndPc t

/-- SHR completes: `x[X]` is half its old value, rounded down; VF, unless it is the destination, is the old bit 0;
`pc = f + 2`; every other register and all else is as before (R97).
With X = 15 it rests on the spec's decision D11. -/
def Obligations.ShrHalvesAndFlagsBitZero : Prop :=
  ∀ (x : Reg) (s : State), ∃ t, exec (.shr x) s = .next t ∧
    (t.reg x).toNat = (s.reg x).toNat / 2 ∧ (x ≠ 15 → t.reg 15 = s.reg x &&& 1) ∧
    (∀ r, r ≠ x → r ≠ 15 → t.reg r = s.reg r) ∧ t.pc = s.pc + 2 ∧ s.OnlyRegsAndPc t

/-- SUBN completes: `x[X]` is `b - a` modulo 256; VF, unless it is the destination, is 1 when `b > a` and 0
otherwise; `pc = f + 2`; every other register and all else is as before (R98).
With X or Y = 15 it rests on the spec's decision D11. -/
def Obligations.SubnSubtractsReversedWithStrictNotBorrow : Prop :=
  ∀ (x y : Reg) (s : State), ∃ t, exec (.subn x y) s = .next t ∧
    ((t.reg x).toNat : Int) = ((s.reg y).toNat - (s.reg x).toNat : Int) % 256 ∧
    (x ≠ 15 → t.reg 15 = if (s.reg x).toNat < (s.reg y).toNat then 0x01 else 0x00) ∧
    (∀ r, r ≠ x → r ≠ 15 → t.reg r = s.reg r) ∧ t.pc = s.pc + 2 ∧ s.OnlyRegsAndPc t

/-- SHL completes: `x[X]` is twice its old value modulo 256; VF, unless it is the destination, is the old bit 7;
`pc = f + 2`; every other register and all else is as before (R99).
With X = 15 it rests on the spec's decision D11. -/
def Obligations.ShlDoublesAndFlagsBitSeven : Prop :=
  ∀ (x : Reg) (s : State), ∃ t, exec (.shl x) s = .next t ∧
    (t.reg x).toNat = 2 * (s.reg x).toNat % 256 ∧ (x ≠ 15 → t.reg 15 = (s.reg x >>> 7) &&& 1) ∧
    (∀ r, r ≠ x → r ≠ 15 → t.reg r = s.reg r) ∧ t.pc = s.pc + 2 ∧ s.OnlyRegsAndPc t

/-! ### Rules over all instructions -/

/-- The next-PC multiplexer (R69): the value of `pc` every instruction leaves, and `f` when a CALL raises (R82).
That CALL raises for the values of `sp` above 16 is the spec's decision D14 (log 19), and that a raise leaves `pc`
at `f` its decision D6 (log 17). -/
def Obligations.NextPcIsTheMultiplexersChoice : Prop :=
  ∀ (i : Instr) (s : State), ∃ t, exec i s = .next t ∧
    t.pc =
      match i with
      | .jp a => a.zeroExtend 16
      | .call a => if s.sp.toNat < 16 then a.zeroExtend 16 else s.pc
      | .se x kk => if s.reg x = kk then s.pc + 4 else s.pc + 2
      | .sne x kk => if s.reg x = kk then s.pc + 2 else s.pc + 4
      | .ser x y => if s.reg x = s.reg y then s.pc + 4 else s.pc + 2
      | .ld _ _ => s.pc + 2
      | .add _ _ => s.pc + 2
      | .ldr _ _ => s.pc + 2
      | .or _ _ => s.pc + 2
      | .and _ _ => s.pc + 2
      | .xor _ _ => s.pc + 2
      | .addr _ _ => s.pc + 2
      | .sub _ _ => s.pc + 2
      | .shr _ => s.pc + 2
      | .subn _ _ => s.pc + 2
      | .shl _ => s.pc + 2

/-- No instruction changes a register but its destination and, where it writes the flag, VF (R15, R26, R76). -/
def Obligations.OnlyDestinationAndFlagChange : Prop :=
  ∀ (i : Instr) (s t : State) (r : Reg), exec i s = .next t → i.dest ≠ some r →
    (i.writesFlag = true → r ≠ 15) → t.reg r = s.reg r

/-- A flag write is 0x00 or 0x01 in all 8 bits, unless the result of the same instruction overwrites VF; and an
instruction that writes no flag and whose destination is not VF leaves VF alone (R25, R26). -/
def Obligations.FlagIsZeroOrOneAndNobodyElseWritesIt : Prop :=
  ∀ (i : Instr) (s t : State), exec i s = .next t → i.dest ≠ some 15 →
    (i.writesFlag = true → t.reg 15 = 0x00 ∨ t.reg 15 = 0x01) ∧ (i.writesFlag = false → t.reg 15 = s.reg 15)

/-- Only a CALL that completes changes the call stack: it fills the entry `sp` names and raises `sp` by one; no step
lowers `sp` or writes another entry (R19, R83, R85).
That no word decodes to a return is the spec's decision D10. -/
def Obligations.OnlyCallChangesTheStack : Prop :=
  ∀ s t : State, step s = .next t →
    s.SameStack t ∨
      (∃ w a, s.fetchWord = .ok w ∧ decode w = .ok (.call a)) ∧ s.sp.toNat < 16 ∧ t.sp.toNat = s.sp.toNat + 1 ∧
        ∀ j : Fin 16, t.entry j = if j.val = s.sp.toNat then s.pc + 2 else s.entry j

/-- No instruction reads or writes memory as data (R42): with any other memory contents it does the same to all the
rest of the state, and leaves those contents as they are. -/
def Obligations.NoInstructionTouchesMemory : Prop :=
  ∀ (i : Instr) (s : State) (m : Memory), ∃ t, exec i s = .next t ∧ t.mem = s.mem ∧
    exec i { s with mem := m } = .next { t with mem := m }

/-- Over any number of steps no byte of memory, no timer and not the address register change (R21, R22, R46).
That the host writes nothing between steps is the spec's decision D18. -/
def Obligations.RunLeavesMemoryTimersAndIAlone : Prop :=
  ∀ (n : Nat) (s t : State), Sys2Proof.core.run n s = .next t → s.SameMemory t ∧ s.SameUnused t

/-- A step depends on neither timer nor the address register (R78): with other values of them it does the same to
all the rest of the state, and leaves them as they are. -/
def Obligations.StepIgnoresTimersAndI : Prop :=
  ∀ (s : State) (i : Word) (dt st : Byte), ∃ t, step s = .next t ∧
    step { s with i := i, dt := dt, st := st } = .next { t with i := i, dt := dt, st := st }

/-- The datapath driven by the control-signal table does at every step what the instruction rules do (R76).
The table is derived in the spec; with X or Y = 15 it rests on the spec's decision D11 (log 9), and a signal or ALU
flag the spec lists none for is absent in the datapath, which is the model's own choice (log 13). -/
def Obligations.DatapathEqualsInstructionRules : Prop := ∀ s : State, datapathStep s = step s

/-- SHR then SHL on one register leaves the old value with bit 0 cleared, SHL then SHR with bit 7 cleared (R100,
C13; derived in the spec). With x = 15, where the result and the flag both go to VF, it rests on the spec's decision
D11 (log 9). -/
def Obligations.ShiftsThereAndBackClearOneBit : Prop :=
  ∀ (x : Reg) (s : State),
    (∃ t u, exec (.shr x) s = .next t ∧ exec (.shl x) t = .next u ∧ u.reg x = s.reg x &&& 0xFE) ∧
    ∃ t u, exec (.shl x) s = .next t ∧ exec (.shr x) t = .next u ∧ u.reg x = s.reg x &&& 0x7F

/-- A JP to its own address runs safely for any number of steps and changes nothing (R81, R120).
That such a run has no end of its own is the spec's decision D20. -/
def Obligations.JumpToSelfIsSafeForever : Prop :=
  ∀ (s : State) (w : Word) (a : Addr) (n : Nat), s.fault.kind = .none → s.pc.toNat ≤ 0xFFE → s.fetchWord = .ok w →
    decode w = .ok (.jp a) → a.zeroExtend 16 = s.pc → SafeFor n s ∧ Sys2Proof.core.run n s = .next s

/-! ### The call-stack unit and memory -/

/-- A pop right after a push gives the pushed value and the old `sp`, and clears no entry; a pop of the empty stack
raises `StackUnderflow` (R84). That the entry stays is the spec's decision D13. -/
def Obligations.PopAfterPushGivesThePushedValue : Prop :=
  (∀ (s : State) (w : Word) (h : (s.push w).sp.toNat ≤ 16), s.sp.toNat < 16 →
      ∃ t, (s.push w).pop h = .ok (w, t) ∧ t.sp = s.sp ∧
      (∀ j : Fin 16, t.entry j = if j.val = s.sp.toNat then w else s.entry j) ∧ s.SameRegs t ∧ s.SameUnused t ∧
      s.SameMemory t ∧ t.pc = s.pc ∧ t.fault = s.fault) ∧
  ∀ (s : State) (h : s.sp.toNat ≤ 16), s.sp.toNat = 0 → s.pop h = .error .stackUnderflow

/-- Two canonical memories that read alike everywhere are the same list, so equal memories are equal data
(20_memory.md section 1; the list is the model's own, log 1). -/
def Obligations.CanonicalMemoriesThatReadAlikeAreEqual : Prop :=
  ∀ m m' : Memory, m.wf → m'.wf → (∀ a, m.read a = m'.read a) → m = m'

/-! ### Invariants -/

/-- The block after reset, alone and among its agents, meets the invariants. -/
def Obligations.ResetMeetsTheInvariants : Prop :=
  State.reset.Inv ∧ State.reset.LatchInv ∧ System.initial.Inv

/-- Every step keeps the invariants of R33: `sp` at most 16, `pc` at most 0x1002; with them, every saved return
address at most 0x1000 (R82), and memory canonical (log 1). They rest on the spec's decisions D3 and D10. -/
def Obligations.StepKeepsStateInvariant : Prop := ∀ s t : State, s.Inv → step s = .next t → t.Inv

/-- Every step keeps the meaning of the fault latch: it is clear, or it names the word, the address and the cause of
the error that halted the block, which can still be seen in the state (R101 to R104, R107).
It rests on the spec's decisions D3, D6, D7, D10 and D14. -/
def Obligations.StepKeepsLatchInvariant : Prop := ∀ s t : State, s.LatchInv → step s = .next t → t.LatchInv

/-- Every action an external agent may take keeps all the invariants, whatever the ticker makes of the timers
(R33, R121). The permitted actions are the spec's decisions D18 and D22, and the boot phases the model's own
(log 7). -/
def Obligations.AgentsKeepSystemInvariant : Prop :=
  ∀ (y z : System) (a : AgentAction), y.Inv → y.act a = .next z → z.Inv

/-! ### The host and the other agents -/

/-- Nothing but reset clears the latch of a halted block (R107, R118; the spec's decision D7). -/
def Obligations.OnlyResetLeavesTheHaltedState : Prop :=
  (∀ (y z : System) (a : AgentAction), y.block.fault.kind ≠ .none → a ≠ .reset → y.act a = .next z →
    z.block.fault = y.block.fault) ∧
  ∀ y : System, y.act .reset = .next ⟨State.reset, .afterReset⟩

/-- Once a step has been requested the boot port is closed: loading and setting `pc` are refused, and no action but
reset changes memory, a register or a stack entry except the step itself (R65, R119, R121).
It is the spec's decisions D18 and D22; the phases are the model's own (log 7). -/
def Obligations.BootPortIsClosedDuringARun : Prop :=
  ∀ y : System, y.phase = .running →
    (∀ l, y.act (.load l) = .refused .hostActionNotAllowed) ∧ y.act .setPc = .refused .hostActionNotAllowed ∧
    (∀ (a : AgentAction) (z : System), a ≠ .reset → y.act a = .next z → y.block.SameMemory z.block) ∧
    ∀ (a : AgentAction) (z : System), a ≠ .reset → a ≠ .step → y.act a = .next z →
      y.block.SameRegs z.block ∧ y.block.SameStack z.block ∧ z.block.pc = y.block.pc ∧
      z.block.fault = y.block.fault ∧ z.block.i = y.block.i

/-- The boot sequence (R119): a program that fits lies at the load offset, every other byte of memory is zero, `pc`
is the load offset and all else is as reset leaves it; a program that does not fit is refused.
The bound is the spec's decision D19. -/
def Obligations.BootPlacesTheProgram : Prop :=
  ∀ (y : System) (l : Launch),
    (l.offset.toNat + l.rom.length ≤ 4096 → ∃ z, y.acts (bootSequence l) = .next z ∧ z.phase = .ready ∧
      z.block.pc = l.offset.zeroExtend 16 ∧
      (∀ (k : Nat) (h : k < l.rom.length), z.block.mem.read (l.offset.toNat + k) = .ok (l.rom[k]'h)) ∧
      (∀ a, a < 4096 → a < l.offset.toNat ∨ l.offset.toNat + l.rom.length ≤ a → z.block.mem.read a = .ok 0) ∧
      (∀ r, z.block.reg r = 0) ∧ z.block.sp = 0 ∧ (∀ j, z.block.entry j = 0) ∧ State.reset.SameUnused z.block ∧
      z.block.fault = ⟨.none, 0, 0⟩) ∧
    (4096 < l.offset.toNat + l.rom.length → y.acts (bootSequence l) = .refused .invalidLaunch)

/-- The ticker changes the timer it decrements, by the rule the spec leaves open (D17, log 6), and nothing else; it
may act at any time between steps (R22, R121). -/
def Obligations.TickerChangesOnlyItsTimer : Prop :=
  ∀ y : System,
    y.act .tickDelay = .next ⟨{ y.block with dt := Config.timerDecrement y.block.dt }, y.phase⟩ ∧
    y.act .tickSound = .next ⟨{ y.block with st := Config.timerDecrement y.block.st }, y.phase⟩
end

