-- ==== Sys2Proof/Laws/Decode.lean ====
section
/-!
SUPPORT. The fields of an encoded word, the word its fields make, and the bits the masks of the opcode table keep.
-/

namespace Sys2Proof

theorem regOf_nibbleOf (r : Reg) : regOf (nibbleOf r) = r := rfl

theorem nibbleOf_regOf (n : Nibble) : nibbleOf (regOf n) = n := rfl

/-! ### The fields of a word of each format (R48, R51) -/

theorem fieldG_wordA (g : Nibble) (a : Addr) : fieldG (wordA g a) = g := by
  unfold fieldG wordA
  ext i hi
  rw [BitVec.getElem_extractLsb', BitVec.getLsbD_append]
  split_ifs <;> first | omega | (rw [← BitVec.getLsbD_eq_getElem]; congr 1; omega)

theorem fieldADDR_wordA (g : Nibble) (a : Addr) : fieldADDR (wordA g a) = a := by
  unfold fieldADDR wordA
  ext i hi
  rw [BitVec.getElem_extractLsb', BitVec.getLsbD_append]
  split_ifs <;> first | omega | (rw [← BitVec.getLsbD_eq_getElem]; congr 1; omega)

theorem fieldG_wordXK (g : Nibble) (x : Reg) (kk : Byte) : fieldG (wordXK g x kk) = g := by
  unfold fieldG wordXK
  ext i hi
  rw [BitVec.getElem_extractLsb', BitVec.getLsbD_append, BitVec.getLsbD_append]
  split_ifs <;> first | omega | (rw [← BitVec.getLsbD_eq_getElem]; congr 1; omega)

theorem fieldX_wordXK (g : Nibble) (x : Reg) (kk : Byte) : fieldX (wordXK g x kk) = nibbleOf x := by
  unfold fieldX wordXK
  ext i hi
  rw [BitVec.getElem_extractLsb', BitVec.getLsbD_append, BitVec.getLsbD_append]
  split_ifs <;> first | omega | (rw [← BitVec.getLsbD_eq_getElem]; congr 1; omega)

theorem fieldKK_wordXK (g : Nibble) (x : Reg) (kk : Byte) : fieldKK (wordXK g x kk) = kk := by
  unfold fieldKK wordXK
  ext i hi
  rw [BitVec.getElem_extractLsb', BitVec.getLsbD_append, BitVec.getLsbD_append]
  split_ifs <;> first | omega | (rw [← BitVec.getLsbD_eq_getElem]; congr 1; omega)

theorem fieldG_wordXY (g : Nibble) (x y : Reg) (n : Nibble) : fieldG (wordXY g x y n) = g := by
  unfold fieldG wordXY
  ext i hi
  rw [BitVec.getElem_extractLsb', BitVec.getLsbD_append, BitVec.getLsbD_append, BitVec.getLsbD_append]
  split_ifs <;> first | omega | (rw [← BitVec.getLsbD_eq_getElem]; congr 1; omega)

theorem fieldX_wordXY (g : Nibble) (x y : Reg) (n : Nibble) : fieldX (wordXY g x y n) = nibbleOf x := by
  unfold fieldX wordXY
  ext i hi
  rw [BitVec.getElem_extractLsb', BitVec.getLsbD_append, BitVec.getLsbD_append, BitVec.getLsbD_append]
  split_ifs <;> first | omega | (rw [← BitVec.getLsbD_eq_getElem]; congr 1; omega)

theorem fieldY_wordXY (g : Nibble) (x y : Reg) (n : Nibble) : fieldY (wordXY g x y n) = nibbleOf y := by
  unfold fieldY wordXY
  ext i hi
  rw [BitVec.getElem_extractLsb', BitVec.getLsbD_append, BitVec.getLsbD_append, BitVec.getLsbD_append]
  split_ifs <;> first | omega | (rw [← BitVec.getLsbD_eq_getElem]; congr 1; omega)

theorem fieldN_wordXY (g : Nibble) (x y : Reg) (n : Nibble) : fieldN (wordXY g x y n) = n := by
  unfold fieldN wordXY
  ext i hi
  rw [BitVec.getElem_extractLsb', BitVec.getLsbD_append, BitVec.getLsbD_append, BitVec.getLsbD_append]
  split_ifs <;> first | omega | (rw [← BitVec.getLsbD_eq_getElem]; congr 1; omega)

/-! ### A word is made of its fields (R48) -/

theorem wordA_fields (w : Word) : wordA (fieldG w) (fieldADDR w) = w := by
  unfold wordA fieldG fieldADDR
  ext i hi
  rw [← BitVec.getLsbD_eq_getElem, ← BitVec.getLsbD_eq_getElem]
  simp only [BitVec.getLsbD_append, BitVec.getLsbD_extractLsb']
  split_ifs <;> rw [decide_eq_true (by omega), Bool.true_and] <;> congr 1 <;> omega

theorem wordXK_fields (w : Word) : wordXK (fieldG w) (regOf (fieldX w)) (fieldKK w) = w := by
  unfold wordXK fieldG fieldX fieldKK
  ext i hi
  rw [← BitVec.getLsbD_eq_getElem, ← BitVec.getLsbD_eq_getElem]
  simp only [BitVec.getLsbD_append, BitVec.getLsbD_extractLsb', nibbleOf_regOf]
  split_ifs <;> rw [decide_eq_true (by omega), Bool.true_and] <;> congr 1 <;> omega

theorem wordXY_fields (w : Word) : wordXY (fieldG w) (regOf (fieldX w)) (regOf (fieldY w)) (fieldN w) = w := by
  unfold wordXY fieldG fieldX fieldY fieldN
  ext i hi
  rw [← BitVec.getLsbD_eq_getElem, ← BitVec.getLsbD_eq_getElem]
  simp only [BitVec.getLsbD_append, BitVec.getLsbD_extractLsb', nibbleOf_regOf]
  split_ifs <;> rw [decide_eq_true (by omega), Bool.true_and] <;> congr 1 <;> omega

/-- The two bytes of a word, assembled as the fetch does, give the word back (R37). -/
theorem assemble_bytes (w : Word) : assemble (highByte w) (lowByte w) = w := by
  unfold assemble highByte lowByte
  ext i hi
  rw [← BitVec.getLsbD_eq_getElem, ← BitVec.getLsbD_eq_getElem]
  simp only [BitVec.getLsbD_append, BitVec.getLsbD_extractLsb']
  split_ifs <;> rw [decide_eq_true (by omega), Bool.true_and] <;> congr 1 <;> omega

/-! ### What a mask keeps (R54, R60) -/

theorem mask_group (w : Word) : w &&& 0xF000 = wordXY (fieldG w) 0 0 0x0#4 := by
  unfold wordXY fieldG nibbleOf
  ext i hi
  rw [← BitVec.getLsbD_eq_getElem, ← BitVec.getLsbD_eq_getElem]
  simp only [BitVec.getLsbD_append, BitVec.getLsbD_and, BitVec.getLsbD_extractLsb']
  interval_cases i <;> simp

theorem mask_group_low (w : Word) : w &&& 0xF00F = wordXY (fieldG w) 0 0 (fieldN w) := by
  unfold wordXY fieldG fieldN nibbleOf
  ext i hi
  rw [← BitVec.getLsbD_eq_getElem, ← BitVec.getLsbD_eq_getElem]
  simp only [BitVec.getLsbD_append, BitVec.getLsbD_and, BitVec.getLsbD_extractLsb']
  interval_cases i <;> simp

theorem mask_all_but_low (w : Word) : w &&& 0xFFF0 = wordXY (fieldG w) (regOf (fieldX w)) (regOf (fieldY w)) 0x0#4 := by
  unfold wordXY fieldG fieldX fieldY nibbleOf regOf
  ext i hi
  rw [← BitVec.getLsbD_eq_getElem, ← BitVec.getLsbD_eq_getElem]
  simp only [BitVec.getLsbD_append, BitVec.getLsbD_and, BitVec.getLsbD_extractLsb', BitVec.ofFin_toFin]
  interval_cases i <;> simp

theorem mask_all_but_Y (w : Word) : w &&& 0xFF0F = wordXY (fieldG w) (regOf (fieldX w)) 0 (fieldN w) := by
  unfold wordXY fieldG fieldX fieldN nibbleOf regOf
  ext i hi
  rw [← BitVec.getLsbD_eq_getElem, ← BitVec.getLsbD_eq_getElem]
  simp only [BitVec.getLsbD_append, BitVec.getLsbD_and, BitVec.getLsbD_extractLsb', BitVec.ofFin_toFin]
  interval_cases i <;> simp

theorem mask_all (w : Word) : w &&& 0xFFFF = w := BitVec.and_allOnes

/-- A word belongs to a row of mask 0xF000 when its group is the row's. -/
theorem mask_group_eq {w : Word} {g : Nibble} (h : fieldG w = g) : w &&& 0xF000 = wordXY g 0 0 0x0#4 := by
  rw [mask_group, h]

/-- A word belongs to a row of mask 0xF00F when its group and low nibble are the row's. -/
theorem mask_group_low_eq {w : Word} {g n : Nibble} (h : fieldG w = g) (hn : fieldN w = n) :
    w &&& 0xF00F = wordXY g 0 0 n := by
  rw [mask_group_low, h, hn]

/-- The group of a word that matches a row of mask 0xF000. -/
theorem fieldG_of_mask {w v : Word} (h : w &&& 0xF000 = v) : fieldG w = fieldG v := by
  rw [← h, mask_group, fieldG_wordXY]

/-- The group and the low nibble of a word that matches a row of mask 0xF00F. -/
theorem fieldGN_of_mask {w v : Word} (h : w &&& 0xF00F = v) : fieldG w = fieldG v ∧ fieldN w = fieldN v := by
  rw [← h, mask_group_low, fieldG_wordXY, fieldN_wordXY]
  exact ⟨rfl, rfl⟩

/-- Where the decoder answers an error it names the word (R55). -/
theorem decode_error {w : Word} {e : DecodeError} (h : decode w = .error e) : e = .unimplemented w := by
  unfold decode decodeGroup8 at h
  simp only at h
  split at h
  case h_8 => split at h <;> cases h; rfl
  case h_9 => cases h; rfl
  all_goals cases h

end Sys2Proof
end

