-- ==== Sys2Proof/Laws/Memory.lean ====
section
/-!
SUPPORT. The laws of memory: a read after a write gives the byte written, a write leaves every other address alone,
and every operation keeps the canonical form.
-/

namespace Sys2Proof.Machine

theorem Memory.lookup_nil (a : Nat) : Memory.lookup [] a = Memory.blank := rfl

/-- Below every listed address memory reads as blank. -/
theorem Memory.lookup_below {m : Memory} {a : Nat} (h : ∀ c ∈ m, a < c.1) : Memory.lookup m a = Memory.blank := by
  induction m with
  | nil => rfl
  | cons c m ih =>
    have hc : c.1 ≠ a := (h c (by simp)).ne'
    simp only [Memory.lookup, if_neg hc]
    exact ih fun d hd => h d (by simp [hd])

/-- `Memory.put` adds no address but the one it writes. -/
theorem Memory.mem_put {m : Memory} {a : Nat} {b : Byte} {c : Host.Cell} (h : c ∈ Memory.put m a b) :
    c = (a, b) ∧ b ≠ Memory.blank ∨ c ∈ m := by
  induction m with
  | nil =>
    simp only [Memory.put] at h
    split_ifs at h <;> simp_all
  | cons d m ih =>
    simp only [Memory.put] at h
    split_ifs at h <;> simp only [List.mem_cons] at h ⊢
    · exact .inr h
    · rcases h with rfl | h
      · exact .inl ⟨rfl, by assumption⟩
      · exact .inr h
    · exact .inr (.inr h)
    · rcases h with rfl | h
      · exact .inl ⟨rfl, by assumption⟩
      · exact .inr (.inr h)
    · rcases h with rfl | h
      · exact .inr (.inl rfl)
      · exact (ih h).imp_right .inr

/-- Every operation keeps the canonical form: the list operation. -/
theorem Memory.put_wf {m : Memory} (hm : m.wf) {a : Nat} (ha : a < Config.memSize) (b : Byte) :
    (Memory.put m a b).wf := by
  refine ⟨?_, fun c hc => ?_⟩
  · obtain ⟨hp, -⟩ := hm
    induction m with
    | nil =>
      simp only [Memory.put]
      split_ifs <;> simp
    | cons d m ih =>
      obtain ⟨hd, hp'⟩ := List.pairwise_cons.1 hp
      simp only [Memory.put]
      split_ifs with h1 h2 h3 h4
      · exact hp
      · refine List.pairwise_cons.2 ⟨fun e he => ?_, hp⟩
        rcases List.mem_cons.1 he with rfl | he
        · exact h1
        · exact h1.trans (hd e he)
      · exact hp'
      · subst h3
        exact List.pairwise_cons.2 ⟨hd, hp'⟩
      · refine List.pairwise_cons.2 ⟨fun e he => ?_, ih hp'⟩
        rcases Memory.mem_put he with ⟨rfl, -⟩ | he
        · show d.1 < a
          omega
        · exact hd e he
  · rcases Memory.mem_put hc with ⟨rfl, hb⟩ | hc
    · exact ⟨ha, hb⟩
    · exact hm.2 c hc

/-- What every address reads as after one byte is put. -/
theorem Memory.lookup_put {m : Memory} (hm : m.Pairwise (fun c d => c.1 < d.1)) (a : Nat) (b : Byte) (k : Nat) :
    Memory.lookup (Memory.put m a b) k = if k = a then b else Memory.lookup m k := by
  induction m with
  | nil =>
    simp only [Memory.put]
    split_ifs with h1 h2 h2 <;> simp_all [Memory.lookup]
    exact fun h => absurd h.symm h2
  | cons d m ih =>
    obtain ⟨d, e⟩ := d
    obtain ⟨hd, hp'⟩ := List.pairwise_cons.1 hm
    have above : ∀ j, j < d → Memory.lookup ((d, e) :: m) j = Memory.blank := fun j hj =>
      Memory.lookup_below fun c hc => (List.mem_cons.1 hc).elim (· ▸ hj) fun hc => hj.trans (hd c hc)
    have atHead : Memory.lookup m d = Memory.blank := Memory.lookup_below hd
    simp only [Memory.put]
    by_cases h1 : a < d
    · rw [if_pos h1]
      by_cases hk : k = a
      · subst hk
        by_cases hb : b = Memory.blank <;> simp [hb, Memory.lookup, above k h1]
      · by_cases hb : b = Memory.blank <;> simp [hb, hk, Ne.symm hk, Memory.lookup]
    · rw [if_neg h1]
      by_cases h2 : a = d
      · subst h2
        by_cases hk : k = a
        · subst hk
          by_cases hb : b = Memory.blank <;> simp [hb, Memory.lookup, atHead]
        · by_cases hb : b = Memory.blank <;> simp [hb, hk, Ne.symm hk, Memory.lookup]
      · rw [if_neg h2, Memory.lookup, Memory.lookup, ih hp']
        by_cases hk : k = a
        · subst hk
          rw [if_neg (Ne.symm h2), if_pos rfl, if_pos rfl]
        · rw [if_neg hk, if_neg hk]

/-- A write keeps the canonical form. -/
theorem Memory.write_wf {m : Memory} (hm : m.wf) (a : Nat) (b : Byte) : (Memory.write m a b).wf := by
  unfold Memory.write
  split_ifs with h
  · exact Memory.put_wf hm h b
  · exact hm

/-- The loader's copy keeps the canonical form. -/
theorem Memory.writeBytes_wf {m : Memory} (hm : m.wf) (a : Nat) (bs : List Byte) : (Memory.writeBytes m a bs).wf := by
  induction bs generalizing m a with
  | nil => exact hm
  | cons b bs ih => exact ih (Memory.write_wf hm a b) (a + 1)

/-- Reset memory is canonical. -/
theorem Memory.reset_wf : State.reset.mem.wf := by decide

/-- A read after a write: the byte written, and every other address as before. -/
theorem Memory.read_write {m : Memory} (hm : m.wf) {a : Nat} (ha : a < Config.memSize) (b : Byte) (k : Nat) :
    (Memory.write m a b).read k = if k = a then .ok b else m.read k := by
  unfold Memory.write Memory.read
  rw [if_pos ha, Memory.lookup_put hm.1]
  split_ifs with h1 h2 <;> simp_all

theorem Memory.write_outside (m : Memory) {a : Nat} (ha : ¬ a < Config.memSize) (b : Byte) :
    Memory.write m a b = m := if_neg ha

/-- A read inside memory answers a byte, and only there (R34, R38). -/
theorem Memory.read_ok_iff (m : Memory) (a : Nat) : (∃ b, m.read a = .ok b) ↔ a < Config.memSize := by
  unfold Memory.read
  split_ifs with h <;> simp [h]

theorem Memory.read_inside (m : Memory) {a : Nat} (h : a < Config.memSize) :
    m.read a = .ok (Memory.lookup m a) := if_pos h

theorem Memory.read_outside (m : Memory) {a : Nat} (h : ¬ a < Config.memSize) :
    m.read a = .error (.noSuchAddress a) := if_neg h

/-- The loader's copy: each byte lies at its address, and every other address reads as before (R119). -/
theorem Memory.read_writeBytes {m : Memory} (hm : m.wf) {a : Nat} {bs : List Byte} (h : a + bs.length ≤ 4096) :
    (∀ (k : Nat) (hk : k < bs.length), (m.writeBytes a bs).read (a + k) = .ok (bs[k]'hk)) ∧
      ∀ j, j < a ∨ a + bs.length ≤ j → (m.writeBytes a bs).read j = m.read j := by
  induction bs generalizing m a with
  | nil => exact ⟨nofun, fun _ _ => rfl⟩
  | cons b bs ih =>
    have h : a + (bs.length + 1) ≤ 4096 := h
    have ha : a < 4096 := by omega
    obtain ⟨inside, outside⟩ := ih (Memory.write_wf hm a b) (a := a + 1) (by omega)
    refine ⟨fun k hk => ?_, fun j hj => ?_⟩
    · cases k with
      | zero =>
        show ((m.write a b).writeBytes (a + 1) bs).read a = .ok b
        rw [outside a (by omega), Memory.read_write hm ha, if_pos rfl]
      | succ k =>
        rw [show a + (k + 1) = a + 1 + k by omega]
        exact inside k (Nat.lt_of_succ_lt_succ hk)
    · have hj : j < a ∨ a + (bs.length + 1) ≤ j := hj
      show ((m.write a b).writeBytes (a + 1) bs).read j = m.read j
      rw [outside j (by omega), Memory.read_write hm ha, if_neg (by omega)]

end Sys2Proof.Machine
end

