-- ==== Sys2Proof/Laws/State.lean ====
section
/-!
SUPPORT. One lemma for each field of State under each update, so that no later proof unfolds a record update.
-/

namespace Sys2Proof.Machine

/-! ### `State.setReg` -/

@[simp] theorem State.setReg_v (s : State) (r : Reg) (b : Byte) : (s.setReg r b).v = s.v.set r b := rfl
@[simp] theorem State.setReg_pc (s : State) (r : Reg) (b : Byte) : (s.setReg r b).pc = s.pc := rfl
@[simp] theorem State.setReg_sp (s : State) (r : Reg) (b : Byte) : (s.setReg r b).sp = s.sp := rfl
@[simp] theorem State.setReg_stack (s : State) (r : Reg) (b : Byte) : (s.setReg r b).stack = s.stack := rfl
@[simp] theorem State.setReg_i (s : State) (r : Reg) (b : Byte) : (s.setReg r b).i = s.i := rfl
@[simp] theorem State.setReg_dt (s : State) (r : Reg) (b : Byte) : (s.setReg r b).dt = s.dt := rfl
@[simp] theorem State.setReg_st (s : State) (r : Reg) (b : Byte) : (s.setReg r b).st = s.st := rfl
@[simp] theorem State.setReg_mem (s : State) (r : Reg) (b : Byte) : (s.setReg r b).mem = s.mem := rfl
@[simp] theorem State.setReg_fault (s : State) (r : Reg) (b : Byte) : (s.setReg r b).fault = s.fault := rfl

/-! ### `State.advance` -/

@[simp] theorem State.advance_v (s : State) : s.advance.v = s.v := rfl
@[simp] theorem State.advance_pc (s : State) : s.advance.pc = s.pc + 2 := rfl
@[simp] theorem State.advance_sp (s : State) : s.advance.sp = s.sp := rfl
@[simp] theorem State.advance_stack (s : State) : s.advance.stack = s.stack := rfl
@[simp] theorem State.advance_i (s : State) : s.advance.i = s.i := rfl
@[simp] theorem State.advance_dt (s : State) : s.advance.dt = s.dt := rfl
@[simp] theorem State.advance_st (s : State) : s.advance.st = s.st := rfl
@[simp] theorem State.advance_mem (s : State) : s.advance.mem = s.mem := rfl
@[simp] theorem State.advance_fault (s : State) : s.advance.fault = s.fault := rfl

/-! ### `State.jump` -/

@[simp] theorem State.jump_v (s : State) (w : Word) : (s.jump w).v = s.v := rfl
@[simp] theorem State.jump_pc (s : State) (w : Word) : (s.jump w).pc = w := rfl
@[simp] theorem State.jump_sp (s : State) (w : Word) : (s.jump w).sp = s.sp := rfl
@[simp] theorem State.jump_stack (s : State) (w : Word) : (s.jump w).stack = s.stack := rfl
@[simp] theorem State.jump_i (s : State) (w : Word) : (s.jump w).i = s.i := rfl
@[simp] theorem State.jump_dt (s : State) (w : Word) : (s.jump w).dt = s.dt := rfl
@[simp] theorem State.jump_st (s : State) (w : Word) : (s.jump w).st = s.st := rfl
@[simp] theorem State.jump_mem (s : State) (w : Word) : (s.jump w).mem = s.mem := rfl
@[simp] theorem State.jump_fault (s : State) (w : Word) : (s.jump w).fault = s.fault := rfl

/-! ### `State.push` -/

@[simp] theorem State.push_v (s : State) (w : Word) : (s.push w).v = s.v := rfl
@[simp] theorem State.push_pc (s : State) (w : Word) : (s.push w).pc = s.pc := rfl
@[simp] theorem State.push_sp (s : State) (w : Word) : (s.push w).sp = s.sp + 1 := rfl
@[simp] theorem State.push_stack (s : State) (w : Word) : (s.push w).stack = s.stack.setIfInBounds s.sp.toNat w := rfl
@[simp] theorem State.push_i (s : State) (w : Word) : (s.push w).i = s.i := rfl
@[simp] theorem State.push_dt (s : State) (w : Word) : (s.push w).dt = s.dt := rfl
@[simp] theorem State.push_st (s : State) (w : Word) : (s.push w).st = s.st := rfl
@[simp] theorem State.push_mem (s : State) (w : Word) : (s.push w).mem = s.mem := rfl
@[simp] theorem State.push_fault (s : State) (w : Word) : (s.push w).fault = s.fault := rfl

/-! ### `State.raise` -/

@[simp] theorem State.raise_v (s : State) (e : Error) : (s.raise e).v = s.v := rfl
@[simp] theorem State.raise_pc (s : State) (e : Error) : (s.raise e).pc = s.pc := rfl
@[simp] theorem State.raise_sp (s : State) (e : Error) : (s.raise e).sp = s.sp := rfl
@[simp] theorem State.raise_stack (s : State) (e : Error) : (s.raise e).stack = s.stack := rfl
@[simp] theorem State.raise_i (s : State) (e : Error) : (s.raise e).i = s.i := rfl
@[simp] theorem State.raise_dt (s : State) (e : Error) : (s.raise e).dt = s.dt := rfl
@[simp] theorem State.raise_st (s : State) (e : Error) : (s.raise e).st = s.st := rfl
@[simp] theorem State.raise_mem (s : State) (e : Error) : (s.raise e).mem = s.mem := rfl
@[simp] theorem State.raise_fault (s : State) (e : Error) : (s.raise e).fault = ⟨e.kind, e.word, s.pc⟩ := rfl

/-! ### `State.placeWord` -/

@[simp] theorem State.placeWord_v (s : State) (w : Word) : (s.placeWord w).v = s.v := rfl
@[simp] theorem State.placeWord_pc (s : State) (w : Word) : (s.placeWord w).pc = s.pc := rfl
@[simp] theorem State.placeWord_sp (s : State) (w : Word) : (s.placeWord w).sp = s.sp := rfl
@[simp] theorem State.placeWord_stack (s : State) (w : Word) : (s.placeWord w).stack = s.stack := rfl
@[simp] theorem State.placeWord_i (s : State) (w : Word) : (s.placeWord w).i = s.i := rfl
@[simp] theorem State.placeWord_dt (s : State) (w : Word) : (s.placeWord w).dt = s.dt := rfl
@[simp] theorem State.placeWord_st (s : State) (w : Word) : (s.placeWord w).st = s.st := rfl
@[simp] theorem State.placeWord_mem (s : State) (w : Word) : (s.placeWord w).mem = s.mem.writeBytes s.pc.toNat (wordBytes w) := rfl
@[simp] theorem State.placeWord_fault (s : State) (w : Word) : (s.placeWord w).fault = s.fault := rfl

/-! ### `State.loadProgram` -/

@[simp] theorem State.loadProgram_v (s : State) (l : Launch) : (s.loadProgram l).v = s.v := rfl
@[simp] theorem State.loadProgram_pc (s : State) (l : Launch) : (s.loadProgram l).pc = s.pc := rfl
@[simp] theorem State.loadProgram_sp (s : State) (l : Launch) : (s.loadProgram l).sp = s.sp := rfl
@[simp] theorem State.loadProgram_stack (s : State) (l : Launch) : (s.loadProgram l).stack = s.stack := rfl
@[simp] theorem State.loadProgram_i (s : State) (l : Launch) : (s.loadProgram l).i = s.i := rfl
@[simp] theorem State.loadProgram_dt (s : State) (l : Launch) : (s.loadProgram l).dt = s.dt := rfl
@[simp] theorem State.loadProgram_st (s : State) (l : Launch) : (s.loadProgram l).st = s.st := rfl
@[simp] theorem State.loadProgram_mem (s : State) (l : Launch) : (s.loadProgram l).mem = s.mem.writeBytes l.offset.toNat l.rom := rfl
@[simp] theorem State.loadProgram_fault (s : State) (l : Launch) : (s.loadProgram l).fault = s.fault := rfl

/-! ### `State.tickDelay` -/

@[simp] theorem State.tickDelay_v (s : State) : s.tickDelay.v = s.v := rfl
@[simp] theorem State.tickDelay_pc (s : State) : s.tickDelay.pc = s.pc := rfl
@[simp] theorem State.tickDelay_sp (s : State) : s.tickDelay.sp = s.sp := rfl
@[simp] theorem State.tickDelay_stack (s : State) : s.tickDelay.stack = s.stack := rfl
@[simp] theorem State.tickDelay_i (s : State) : s.tickDelay.i = s.i := rfl
@[simp] theorem State.tickDelay_dt (s : State) : s.tickDelay.dt = Config.timerDecrement s.dt := rfl
@[simp] theorem State.tickDelay_st (s : State) : s.tickDelay.st = s.st := rfl
@[simp] theorem State.tickDelay_mem (s : State) : s.tickDelay.mem = s.mem := rfl
@[simp] theorem State.tickDelay_fault (s : State) : s.tickDelay.fault = s.fault := rfl

/-! ### `State.tickSound` -/

@[simp] theorem State.tickSound_v (s : State) : s.tickSound.v = s.v := rfl
@[simp] theorem State.tickSound_pc (s : State) : s.tickSound.pc = s.pc := rfl
@[simp] theorem State.tickSound_sp (s : State) : s.tickSound.sp = s.sp := rfl
@[simp] theorem State.tickSound_stack (s : State) : s.tickSound.stack = s.stack := rfl
@[simp] theorem State.tickSound_i (s : State) : s.tickSound.i = s.i := rfl
@[simp] theorem State.tickSound_dt (s : State) : s.tickSound.dt = s.dt := rfl
@[simp] theorem State.tickSound_st (s : State) : s.tickSound.st = Config.timerDecrement s.st := rfl
@[simp] theorem State.tickSound_mem (s : State) : s.tickSound.mem = s.mem := rfl
@[simp] theorem State.tickSound_fault (s : State) : s.tickSound.fault = s.fault := rfl

/-! ### `State.skipIf` -/

@[simp] theorem State.skipIf_pc (s : State) (c : Bool) : (s.skipIf c).pc = if c then s.pc + 2 else s.pc := by
  cases c <;> rfl
@[simp] theorem State.skipIf_v (s : State) (c : Bool) : (s.skipIf c).v = s.v := by cases c <;> rfl
@[simp] theorem State.skipIf_sp (s : State) (c : Bool) : (s.skipIf c).sp = s.sp := by cases c <;> rfl
@[simp] theorem State.skipIf_stack (s : State) (c : Bool) : (s.skipIf c).stack = s.stack := by cases c <;> rfl
@[simp] theorem State.skipIf_i (s : State) (c : Bool) : (s.skipIf c).i = s.i := by cases c <;> rfl
@[simp] theorem State.skipIf_dt (s : State) (c : Bool) : (s.skipIf c).dt = s.dt := by cases c <;> rfl
@[simp] theorem State.skipIf_st (s : State) (c : Bool) : (s.skipIf c).st = s.st := by cases c <;> rfl
@[simp] theorem State.skipIf_mem (s : State) (c : Bool) : (s.skipIf c).mem = s.mem := by cases c <;> rfl
@[simp] theorem State.skipIf_fault (s : State) (c : Bool) : (s.skipIf c).fault = s.fault := by cases c <;> rfl

/-! ### `State.setFlag` and `State.writeBack` -/

@[simp] theorem State.setFlag_v (s : State) (c : Bool) : (s.setFlag c).v = s.v.set 15 (if c then 0x01 else 0x00) := rfl
@[simp] theorem State.writeBack_v (s : State) (x : Reg) (c : Bool) (b : Byte) :
    (s.writeBack x c b).v = (s.v.set 15 (if c then 0x01 else 0x00)).set x b := rfl
@[simp] theorem State.setFlag_pc (s : State) (c : Bool) : (s.setFlag c).pc = s.pc := rfl
@[simp] theorem State.writeBack_pc (s : State) (x : Reg) (c : Bool) (b : Byte) : (s.writeBack x c b).pc = s.pc := rfl
@[simp] theorem State.setFlag_sp (s : State) (c : Bool) : (s.setFlag c).sp = s.sp := rfl
@[simp] theorem State.writeBack_sp (s : State) (x : Reg) (c : Bool) (b : Byte) : (s.writeBack x c b).sp = s.sp := rfl
@[simp] theorem State.setFlag_stack (s : State) (c : Bool) : (s.setFlag c).stack = s.stack := rfl
@[simp] theorem State.writeBack_stack (s : State) (x : Reg) (c : Bool) (b : Byte) : (s.writeBack x c b).stack = s.stack := rfl
@[simp] theorem State.setFlag_i (s : State) (c : Bool) : (s.setFlag c).i = s.i := rfl
@[simp] theorem State.writeBack_i (s : State) (x : Reg) (c : Bool) (b : Byte) : (s.writeBack x c b).i = s.i := rfl
@[simp] theorem State.setFlag_dt (s : State) (c : Bool) : (s.setFlag c).dt = s.dt := rfl
@[simp] theorem State.writeBack_dt (s : State) (x : Reg) (c : Bool) (b : Byte) : (s.writeBack x c b).dt = s.dt := rfl
@[simp] theorem State.setFlag_st (s : State) (c : Bool) : (s.setFlag c).st = s.st := rfl
@[simp] theorem State.writeBack_st (s : State) (x : Reg) (c : Bool) (b : Byte) : (s.writeBack x c b).st = s.st := rfl
@[simp] theorem State.setFlag_mem (s : State) (c : Bool) : (s.setFlag c).mem = s.mem := rfl
@[simp] theorem State.writeBack_mem (s : State) (x : Reg) (c : Bool) (b : Byte) : (s.writeBack x c b).mem = s.mem := rfl
@[simp] theorem State.setFlag_fault (s : State) (c : Bool) : (s.setFlag c).fault = s.fault := rfl
@[simp] theorem State.writeBack_fault (s : State) (x : Reg) (c : Bool) (b : Byte) : (s.writeBack x c b).fault = s.fault := rfl

/-! ### Registers and stack entries through the updates -/

@[simp] theorem State.reg_setReg (s : State) (x r : Reg) (b : Byte) :
    (s.setReg x b).reg r = if r = x then b else s.reg r := by
  simp only [State.reg, State.setReg, Vector.get_eq_getElem, Vector.getElem_set, Fin.ext_iff, eq_comm]

@[simp] theorem State.reg_setFlag (s : State) (c : Bool) (r : Reg) :
    (s.setFlag c).reg r = if r = 15 then (if c then 0x01 else 0x00) else s.reg r :=
  State.reg_setReg s 15 r _

@[simp] theorem State.reg_writeBack (s : State) (x r : Reg) (c : Bool) (b : Byte) :
    (s.writeBack x c b).reg r = if r = x then b else if r = 15 then (if c then 0x01 else 0x00) else s.reg r := by
  simp only [State.writeBack, State.reg_setReg, State.reg_setFlag]

@[simp] theorem State.entry_push (s : State) (w : Word) (j : Fin 16) :
    (s.push w).entry j = if j.val = s.sp.toNat then w else s.entry j := by
  simp only [State.entry, State.push, Vector.get_eq_getElem, Vector.getElem_setIfInBounds, eq_comm]

@[simp] theorem State.entry_setReg (s : State) (r : Reg) (b : Byte) (j : Fin 16) : (s.setReg r b).entry j = s.entry j := rfl
@[simp] theorem State.reg_advance (s : State) (r : Reg) : s.advance.reg r = s.reg r := rfl
@[simp] theorem State.entry_advance (s : State) (j : Fin 16) : s.advance.entry j = s.entry j := rfl
@[simp] theorem State.reg_jump (s : State) (w : Word) (r : Reg) : (s.jump w).reg r = s.reg r := rfl
@[simp] theorem State.entry_jump (s : State) (w : Word) (j : Fin 16) : (s.jump w).entry j = s.entry j := rfl
@[simp] theorem State.reg_push (s : State) (w : Word) (r : Reg) : (s.push w).reg r = s.reg r := rfl
@[simp] theorem State.reg_raise (s : State) (e : Error) (r : Reg) : (s.raise e).reg r = s.reg r := rfl
@[simp] theorem State.entry_raise (s : State) (e : Error) (j : Fin 16) : (s.raise e).entry j = s.entry j := rfl
@[simp] theorem State.reg_placeWord (s : State) (w : Word) (r : Reg) : (s.placeWord w).reg r = s.reg r := rfl
@[simp] theorem State.entry_placeWord (s : State) (w : Word) (j : Fin 16) : (s.placeWord w).entry j = s.entry j := rfl
@[simp] theorem State.reg_loadProgram (s : State) (l : Launch) (r : Reg) : (s.loadProgram l).reg r = s.reg r := rfl
@[simp] theorem State.entry_loadProgram (s : State) (l : Launch) (j : Fin 16) : (s.loadProgram l).entry j = s.entry j := rfl
@[simp] theorem State.reg_tickDelay (s : State) (r : Reg) : s.tickDelay.reg r = s.reg r := rfl
@[simp] theorem State.entry_tickDelay (s : State) (j : Fin 16) : s.tickDelay.entry j = s.entry j := rfl
@[simp] theorem State.reg_tickSound (s : State) (r : Reg) : s.tickSound.reg r = s.reg r := rfl
@[simp] theorem State.entry_tickSound (s : State) (j : Fin 16) : s.tickSound.entry j = s.entry j := rfl
@[simp] theorem State.reg_skipIf (s : State) (c : Bool) (r : Reg) : (s.skipIf c).reg r = s.reg r := by cases c <;> rfl
@[simp] theorem State.entry_skipIf (s : State) (c : Bool) (j : Fin 16) : (s.skipIf c).entry j = s.entry j := by cases c <;> rfl
@[simp] theorem State.entry_setFlag (s : State) (c : Bool) (j : Fin 16) : (s.setFlag c).entry j = s.entry j := rfl
@[simp] theorem State.entry_writeBack (s : State) (x : Reg) (c : Bool) (b : Byte) (j : Fin 16) :
    (s.writeBack x c b).entry j = s.entry j := rfl

/-! ### The state after reset -/

@[simp] theorem State.reg_reset (r : Reg) : State.reset.reg r = 0 := by
  simp [State.reg, State.reset, Vector.get_eq_getElem]

@[simp] theorem State.entry_reset (j : Fin 16) : State.reset.entry j = 0 := by
  simp [State.entry, State.reset, Vector.get_eq_getElem]

end Sys2Proof.Machine
end

