-- ==== Sys2Proof/Laws/Ops.lean ====
section
/-!
SUPPORT. One lemma for each shared operation that says what it can do: the commit rule, the push and the pop, the
fetch, and the two ways bytes reach the fetch.
-/

namespace Sys2Proof.Machine

/-! ### The commit rule (R68) -/

theorem complete_eq (s : State) (body : State → State) : complete s body = .next (body s.advance) := rfl

/-- A transaction always answers a next state: the committed one, or the raised error and nothing else. -/
theorem transact_cases {s t : State} {body : State → Except Error State} (h : transact s body = .next t) :
    body s.advance = .ok t ∨ ∃ e, body s.advance = .error e ∧ t = s.raise e := by
  unfold transact at h
  split at h <;> cases h
  · exact .inl ‹_›
  · exact .inr ⟨_, ‹_›, rfl⟩

theorem transact_ok {s t : State} {body : State → Except Error State} (h : body s.advance = .ok t) :
    transact s body = .next t := by
  rw [transact, h]

theorem transact_error {s : State} {e : Error} {body : State → Except Error State} (h : body s.advance = .error e) :
    transact s body = .next (s.raise e) := by
  rw [transact, h]

/-! ### The call stack (R83, R84) -/

theorem State.stackFull_iff (s : State) : s.stackFull = true ↔ 16 ≤ s.sp.toNat := decide_eq_true_iff

theorem State.not_stackFull_iff (s : State) : s.stackFull = false ↔ s.sp.toNat < 16 :=
  decide_eq_false_iff_not.trans Nat.not_le

theorem State.push_sp_toNat {s : State} (h : s.sp.toNat < 16) (w : Word) :
    (s.push w).sp.toNat = s.sp.toNat + 1 := by
  rw [State.push_sp, BitVec.toNat_add]
  show (s.sp.toNat + 1) % 32 = s.sp.toNat + 1
  omega

/-- What a pop answers, on the legal values of `sp`. -/
theorem State.pop_cases (s : State) (h : s.sp.toNat ≤ Config.stackDepth) :
    s.sp.toNat = 0 ∧ s.pop h = .error .stackUnderflow ∨
      ∃ j : Fin 16, s.sp.toNat = j.val + 1 ∧ s.pop h = .ok (s.entry j, { s with sp := s.sp - 1 }) := by
  by_cases h0 : s.sp.toNat = 0
  · exact .inl ⟨h0, dif_pos h0⟩
  · have h' : s.sp.toNat ≤ 16 := h
    exact .inr ⟨⟨s.sp.toNat - 1, by omega⟩, by show _ = _ - 1 + 1; omega, dif_neg h0⟩

/-! ### The fault latch -/

theorem State.halted_iff (s : State) : s.halted = true ↔ s.fault.kind ≠ .none := by
  simp [State.halted]

theorem State.not_halted_iff (s : State) : s.halted = false ↔ s.fault.kind = .none := by
  simp [State.halted]

theorem Error.kind_ne_none (e : Error) : e.kind ≠ .none := by cases e <;> simp [Error.kind]

theorem State.raise_halted (s : State) (e : Error) : (s.raise e).halted = true :=
  (State.halted_iff _).2 (Error.kind_ne_none e)

/-! ### The fetch (R38, R39) -/

theorem State.fetchInBounds_iff (s : State) : s.fetchInBounds = true ↔ s.pc.toNat ≤ 0xFFE :=
  decide_eq_true_iff

theorem State.not_fetchInBounds_iff (s : State) : s.fetchInBounds = false ↔ 0xFFE < s.pc.toNat :=
  decide_eq_false_iff_not.trans Nat.not_le

/-- In bounds, both bytes exist: the fetch answers a word. -/
theorem State.fetchWord_inBounds {s : State} (h : s.pc.toNat ≤ 0xFFE) :
    s.fetchWord = .ok (assemble (s.mem.lookup s.pc.toNat) (s.mem.lookup (s.pc.toNat + 1))) := by
  have h1 : s.pc.toNat < Config.memSize := by show _ < 4096; omega
  have h2 : s.pc.toNat + 1 < Config.memSize := by show _ < 4096; omega
  rw [State.fetchWord, Memory.read_inside _ h1, Memory.read_inside _ h2]

/-- The fetch from the two bytes read. -/
theorem State.fetchWord_of_reads {s : State} {hi lo : Byte} (h1 : s.mem.read s.pc.toNat = .ok hi)
    (h2 : s.mem.read (s.pc.toNat + 1) = .ok lo) : s.fetchWord = .ok (assemble hi lo) := by
  rw [State.fetchWord, h1, h2]

/-- A word placed at an address that can be fetched is the word fetched. -/
theorem State.fetchWord_placeWord {s : State} (hm : s.mem.wf) (h : s.pc.toNat ≤ 0xFFE) (w : Word) :
    (s.placeWord w).fetchWord = .ok w := by
  have h1 : s.pc.toNat < Config.memSize := by show _ < 4096; omega
  have h2 : s.pc.toNat + 1 < Config.memSize := by show _ < 4096; omega
  have hm1 := Memory.write_wf hm s.pc.toNat (highByte w)
  have r1 : (s.placeWord w).mem.read s.pc.toNat = .ok (highByte w) := by
    show (Memory.write (Memory.write s.mem _ _) _ _).read _ = _
    rw [Memory.read_write hm1 h2, if_neg (Nat.ne_of_lt (Nat.lt_succ_self _)), Memory.read_write hm h1, if_pos rfl]
  have r2 : (s.placeWord w).mem.read (s.pc.toNat + 1) = .ok (lowByte w) := by
    show (Memory.write (Memory.write s.mem _ _) _ _).read _ = _
    rw [Memory.read_write hm1 h2, if_pos rfl]
  rw [State.fetchWord_of_reads r1 r2, assemble_bytes]

theorem State.placeWord_wf {s : State} (hm : s.mem.wf) (w : Word) : (s.placeWord w).mem.wf :=
  Memory.writeBytes_wf hm _ _

theorem State.loadProgram_wf {s : State} (hm : s.mem.wf) (l : Launch) : (s.loadProgram l).mem.wf :=
  Memory.writeBytes_wf hm _ _

/-! ### Operands and flags -/

theorem targetOf_toNat (a : Addr) : (targetOf a).toNat = a.toNat := by
  simp [targetOf, Nat.mod_eq_of_lt (show a.toNat < 65536 by omega)]

theorem State.latchXY_a (s : State) (x y : Reg) : (s.latchXY x y).a = s.reg x := rfl

theorem State.latchXY_b (s : State) (x y : Reg) : (s.latchXY x y).b = s.reg y := rfl

theorem State.latchX_eq (s : State) (x : Reg) : s.latchX x = s.reg x := rfl

theorem carryFlag_iff (a b : Byte) : carryFlag a b = true ↔ 255 < a.toNat + b.toNat := by simp [carryFlag]

theorem notBorrowFlag_iff (a b : Byte) : notBorrowFlag a b = true ↔ b.toNat < a.toNat := by simp [notBorrowFlag]

theorem equalTo_iff (a c : Byte) : equalTo a c = true ↔ a = c := by simp [equalTo]

theorem shiftedOutRight_eq (a : Byte) : shiftedOutRight a = a.getLsbD 0 := by
  revert a
  decide

theorem shiftedOutLeft_eq (a : Byte) : shiftedOutLeft a = a.getLsbD 7 := by
  revert a
  decide

end Sys2Proof.Machine
end

