-- ==== Sys2Proof/Laws/PerInstr.lean ====
section
/-!
SUPPORT. A statement about every instruction as a term: its word belongs to the opcode table's row of its mnemonic
(spec/opcode_table.json, R60).
-/

/-- The word of the instruction has its row's fixed bits, and the row carries its mnemonic. -/
def Sys2Proof.Laws.TableRow.Statement (i : Sys2Proof.Instr) : Prop :=
  (Sys2Proof.opcodeRow i).has (Sys2Proof.encode i) = true ∧ (Sys2Proof.opcodeRow i).mnemonic = i.mnemonic

theorem Sys2Proof.Laws.TableRow.jp (a : Addr) : Sys2Proof.Laws.TableRow.Statement (.jp a) :=
  ⟨beq_iff_eq.2 (Sys2Proof.mask_group_eq (Sys2Proof.fieldG_wordA ..)), rfl⟩

theorem Sys2Proof.Laws.TableRow.call (a : Addr) : Sys2Proof.Laws.TableRow.Statement (.call a) :=
  ⟨beq_iff_eq.2 (Sys2Proof.mask_group_eq (Sys2Proof.fieldG_wordA ..)), rfl⟩

theorem Sys2Proof.Laws.TableRow.se (x : Reg) (kk : Byte) : Sys2Proof.Laws.TableRow.Statement (.se x kk) :=
  ⟨beq_iff_eq.2 (Sys2Proof.mask_group_eq (Sys2Proof.fieldG_wordXK ..)), rfl⟩

theorem Sys2Proof.Laws.TableRow.sne (x : Reg) (kk : Byte) : Sys2Proof.Laws.TableRow.Statement (.sne x kk) :=
  ⟨beq_iff_eq.2 (Sys2Proof.mask_group_eq (Sys2Proof.fieldG_wordXK ..)), rfl⟩

theorem Sys2Proof.Laws.TableRow.ser (x y : Reg) : Sys2Proof.Laws.TableRow.Statement (.ser x y) :=
  ⟨beq_iff_eq.2 (Sys2Proof.mask_group_eq (Sys2Proof.fieldG_wordXY ..)), rfl⟩

theorem Sys2Proof.Laws.TableRow.ld (x : Reg) (kk : Byte) : Sys2Proof.Laws.TableRow.Statement (.ld x kk) :=
  ⟨beq_iff_eq.2 (Sys2Proof.mask_group_eq (Sys2Proof.fieldG_wordXK ..)), rfl⟩

theorem Sys2Proof.Laws.TableRow.add (x : Reg) (kk : Byte) : Sys2Proof.Laws.TableRow.Statement (.add x kk) :=
  ⟨beq_iff_eq.2 (Sys2Proof.mask_group_eq (Sys2Proof.fieldG_wordXK ..)), rfl⟩

theorem Sys2Proof.Laws.TableRow.ldr (x y : Reg) : Sys2Proof.Laws.TableRow.Statement (.ldr x y) :=
  ⟨beq_iff_eq.2 (Sys2Proof.mask_group_low_eq (Sys2Proof.fieldG_wordXY ..) (Sys2Proof.fieldN_wordXY ..)), rfl⟩

theorem Sys2Proof.Laws.TableRow.or (x y : Reg) : Sys2Proof.Laws.TableRow.Statement (.or x y) :=
  ⟨beq_iff_eq.2 (Sys2Proof.mask_group_low_eq (Sys2Proof.fieldG_wordXY ..) (Sys2Proof.fieldN_wordXY ..)), rfl⟩

theorem Sys2Proof.Laws.TableRow.and (x y : Reg) : Sys2Proof.Laws.TableRow.Statement (.and x y) :=
  ⟨beq_iff_eq.2 (Sys2Proof.mask_group_low_eq (Sys2Proof.fieldG_wordXY ..) (Sys2Proof.fieldN_wordXY ..)), rfl⟩

theorem Sys2Proof.Laws.TableRow.xor (x y : Reg) : Sys2Proof.Laws.TableRow.Statement (.xor x y) :=
  ⟨beq_iff_eq.2 (Sys2Proof.mask_group_low_eq (Sys2Proof.fieldG_wordXY ..) (Sys2Proof.fieldN_wordXY ..)), rfl⟩

theorem Sys2Proof.Laws.TableRow.addr (x y : Reg) : Sys2Proof.Laws.TableRow.Statement (.addr x y) :=
  ⟨beq_iff_eq.2 (Sys2Proof.mask_group_low_eq (Sys2Proof.fieldG_wordXY ..) (Sys2Proof.fieldN_wordXY ..)), rfl⟩

theorem Sys2Proof.Laws.TableRow.sub (x y : Reg) : Sys2Proof.Laws.TableRow.Statement (.sub x y) :=
  ⟨beq_iff_eq.2 (Sys2Proof.mask_group_low_eq (Sys2Proof.fieldG_wordXY ..) (Sys2Proof.fieldN_wordXY ..)), rfl⟩

theorem Sys2Proof.Laws.TableRow.shr (x : Reg) : Sys2Proof.Laws.TableRow.Statement (.shr x) :=
  ⟨beq_iff_eq.2 (Sys2Proof.mask_group_low_eq (Sys2Proof.fieldG_wordXY ..) (Sys2Proof.fieldN_wordXY ..)), rfl⟩

theorem Sys2Proof.Laws.TableRow.subn (x y : Reg) : Sys2Proof.Laws.TableRow.Statement (.subn x y) :=
  ⟨beq_iff_eq.2 (Sys2Proof.mask_group_low_eq (Sys2Proof.fieldG_wordXY ..) (Sys2Proof.fieldN_wordXY ..)), rfl⟩

theorem Sys2Proof.Laws.TableRow.shl (x : Reg) : Sys2Proof.Laws.TableRow.Statement (.shl x) :=
  ⟨beq_iff_eq.2 (Sys2Proof.mask_group_low_eq (Sys2Proof.fieldG_wordXY ..) (Sys2Proof.fieldN_wordXY ..)), rfl⟩
end

