-- ==== Sys2Proof/Laws/Step.lean ====
section
/-!
SUPPORT. What each meaning answers, and what a step can do.
-/

namespace Sys2Proof.Machine

/-! ### The meanings, one lemma for each -/

theorem exec_jp (a : Addr) (s : State) : exec (.jp a) s = .next (s.advance.jump (targetOf a)) := rfl

theorem exec_call (a : Addr) {s : State} (h : s.sp.toNat < 16) :
    exec (.call a) s = .next ((s.advance.push (s.pc + 2)).jump (targetOf a)) := by
  rw [exec, execCall]
  exact transact_ok (if_neg (Bool.eq_false_iff.1 ((State.not_stackFull_iff s.advance).2 h)))

theorem exec_call_full (a : Addr) {s : State} (h : 16 ≤ s.sp.toNat) :
    exec (.call a) s = .next (s.raise .stackOverflow) := by
  rw [exec, execCall]
  exact transact_error (if_pos ((State.stackFull_iff s.advance).2 h))

theorem exec_se (x : Reg) (kk : Byte) (s : State) :
    exec (.se x kk) s = .next (s.advance.skipIf (equalTo (s.reg x) kk)) := rfl

theorem exec_sne (x : Reg) (kk : Byte) (s : State) :
    exec (.sne x kk) s = .next (s.advance.skipIf (!equalTo (s.reg x) kk)) := rfl

theorem exec_ser (x y : Reg) (s : State) :
    exec (.ser x y) s = .next (s.advance.skipIf (equalTo (s.reg x) (s.reg y))) := rfl

theorem exec_ld (x : Reg) (kk : Byte) (s : State) : exec (.ld x kk) s = .next (s.advance.setReg x kk) := rfl

theorem exec_add (x : Reg) (kk : Byte) (s : State) :
    exec (.add x kk) s = .next (s.advance.setReg x (s.reg x + kk)) := rfl

theorem exec_ldr (x y : Reg) (s : State) : exec (.ldr x y) s = .next (s.advance.setReg x (s.reg y)) := rfl

theorem exec_or (x y : Reg) (s : State) :
    exec (.or x y) s = .next (s.advance.setReg x (s.reg x ||| s.reg y)) := rfl

theorem exec_and (x y : Reg) (s : State) :
    exec (.and x y) s = .next (s.advance.setReg x (s.reg x &&& s.reg y)) := rfl

theorem exec_xor (x y : Reg) (s : State) :
    exec (.xor x y) s = .next (s.advance.setReg x (s.reg x ^^^ s.reg y)) := rfl

theorem exec_addr (x y : Reg) (s : State) :
    exec (.addr x y) s = .next (s.advance.writeBack x (carryFlag (s.reg x) (s.reg y)) (s.reg x + s.reg y)) := rfl

theorem exec_sub (x y : Reg) (s : State) :
    exec (.sub x y) s = .next (s.advance.writeBack x (notBorrowFlag (s.reg x) (s.reg y)) (s.reg x - s.reg y)) := rfl

theorem exec_shr (x : Reg) (s : State) :
    exec (.shr x) s = .next (s.advance.writeBack x (shiftedOutRight (s.reg x)) (s.reg x >>> 1)) := rfl

theorem exec_subn (x y : Reg) (s : State) :
    exec (.subn x y) s = .next (s.advance.writeBack x (notBorrowFlag (s.reg y) (s.reg x)) (s.reg y - s.reg x)) := rfl

theorem exec_shl (x : Reg) (s : State) :
    exec (.shl x) s = .next (s.advance.writeBack x (shiftedOutLeft (s.reg x)) (s.reg x <<< 1)) := rfl

theorem advance_skipIf_pc (s : State) (c : Bool) :
    (s.advance.skipIf c).pc = if c then s.pc + 4 else s.pc + 2 := by
  cases c <;> simp [BitVec.add_assoc]

/-- Everything an instruction can do: a CALL on a full stack raises and commits nothing else; anything else leaves the
latch, memory, the timers and `I` alone, sets `pc` to an address of 12 bits or moves it on by 2 or 4, and leaves the
call stack alone unless it is a CALL. -/
theorem exec_cases (i : Instr) (s : State) : ∃ t, exec i s = .next t ∧
    ((∃ a, i = .call a ∧ 16 ≤ s.sp.toNat ∧ t = s.raise .stackOverflow) ∨
      (∀ a, i = .call a → s.sp.toNat < 16) ∧ t.fault = s.fault ∧ t.mem = s.mem ∧
        (t.i = s.i ∧ t.dt = s.dt ∧ t.st = s.st) ∧
        ((∃ a : Addr, t.pc = targetOf a) ∨ t.pc = s.pc + 2 ∨ t.pc = s.pc + 4) ∧
        (t.sp = s.sp ∧ t.stack = s.stack ∨ (∃ a, i = .call a) ∧ t.sp.toNat = s.sp.toNat + 1 ∧
          ∀ j : Fin 16, t.entry j = if j.val = s.sp.toNat then s.pc + 2 else s.entry j)) := by
  have skip (c : Bool) : (s.advance.skipIf c).pc = s.pc + 2 ∨ (s.advance.skipIf c).pc = s.pc + 4 := by
    rw [advance_skipIf_pc]
    cases c <;> simp
  cases i with
  | call a =>
    rcases Nat.lt_or_ge s.sp.toNat 16 with h | h
    · exact ⟨_, exec_call a h, .inr ⟨fun _ _ => h, rfl, rfl, ⟨rfl, rfl, rfl⟩, .inl ⟨a, rfl⟩,
        .inr ⟨⟨a, rfl⟩, State.push_sp_toNat (s := s.advance) h (s.pc + 2), State.entry_push s.advance (s.pc + 2)⟩⟩⟩
    · exact ⟨_, exec_call_full a h, .inl ⟨a, rfl, h, rfl⟩⟩
  | jp a => exact ⟨_, rfl, .inr ⟨nofun, rfl, rfl, ⟨rfl, rfl, rfl⟩, .inl ⟨a, rfl⟩, .inl ⟨rfl, rfl⟩⟩⟩
  | se x kk => exact ⟨_, exec_se x kk s, .inr ⟨nofun, by simp, by simp, by simp, .inr (skip _), by simp⟩⟩
  | sne x kk => exact ⟨_, exec_sne x kk s, .inr ⟨nofun, by simp, by simp, by simp, .inr (skip _), by simp⟩⟩
  | ser x y => exact ⟨_, exec_ser x y s, .inr ⟨nofun, by simp, by simp, by simp, .inr (skip _), by simp⟩⟩
  | _ => exact ⟨_, rfl, .inr ⟨nofun, rfl, rfl, ⟨rfl, rfl, rfl⟩, .inr (.inl rfl), .inl ⟨rfl, rfl⟩⟩⟩

/-! ### The step -/

theorem step_halted {s : State} (h : s.fault.kind ≠ .none) : step s = .next s := by
  rw [step, cycle, if_pos ((State.halted_iff s).2 h)]

theorem step_outOfBounds {s : State} (h : s.fault.kind = .none) (hf : 0xFFE < s.pc.toNat) :
    step s = .next (s.raise .outOfBoundsFetch) := by
  rw [step, cycle, (State.not_halted_iff s).2 h, (State.not_fetchInBounds_iff s).2 hf]
  rfl

theorem step_fetched {s : State} {w : Word} (h : s.fault.kind = .none) (hf : s.pc.toNat ≤ 0xFFE)
    (hw : s.fetchWord = .ok w) : step s = dispatchWord w s := by
  rw [step, cycle, (State.not_halted_iff s).2 h, (State.fetchInBounds_iff s).2 hf, hw]
  rfl

theorem dispatchWord_ok {w : Word} {i : Instr} (h : decode w = .ok i) (s : State) :
    dispatchWord w s = exec i s := by
  rw [dispatchWord, h]

theorem dispatchWord_error {w : Word} {e : DecodeError} (h : decode w = .error e) (s : State) :
    dispatchWord w s = .next (s.raise (.unimplementedOpcode w)) := by
  rw [dispatchWord, h]

/-- Everything a step can do: nothing while halted, a raised fetch error, a raised decode error, or the decoded
instruction. -/
theorem step_cases (s : State) :
    s.fault.kind ≠ .none ∧ step s = .next s ∨
    s.fault.kind = .none ∧ 0xFFE < s.pc.toNat ∧ step s = .next (s.raise .outOfBoundsFetch) ∨
    s.fault.kind = .none ∧ s.pc.toNat ≤ 0xFFE ∧ ∃ w, s.fetchWord = .ok w ∧
      ((∃ e, decode w = .error e ∧ step s = .next (s.raise (.unimplementedOpcode w))) ∨
        ∃ i, decode w = .ok i ∧ step s = exec i s) := by
  by_cases h : s.fault.kind = .none
  · by_cases hf : s.pc.toNat ≤ 0xFFE
    · have hw := State.fetchWord_inBounds hf
      refine .inr (.inr ⟨h, hf, _, hw, ?_⟩)
      rw [step_fetched h hf hw]
      cases hd : decode (assemble (s.mem.lookup s.pc.toNat) (s.mem.lookup (s.pc.toNat + 1))) with
      | error e => exact .inl ⟨e, rfl, dispatchWord_error hd s⟩
      | ok i => exact .inr ⟨i, rfl, dispatchWord_ok hd s⟩
    · exact .inr (.inl ⟨h, by omega, step_outOfBounds h (by omega)⟩)
  · exact .inl ⟨h, step_halted h⟩

/-- A placed opcode-table word is run by the very next step. -/
theorem step_withFetchWord {s : State} (hm : s.mem.wf) (h : s.fault.kind = .none) (hf : s.pc.toNat ≤ 0xFFE)
    (nbits w : Nat) :
    step (s.withFetchWord nbits w) = dispatchWord (BitVec.ofNat 16 (w % 2 ^ nbits)) (s.withFetchWord nbits w) :=
  step_fetched h hf (State.fetchWord_placeWord hm hf _)

/-- A run of one more step, when the first answers a next state. -/
theorem run_succ {n : Nat} {s t : State} (h : step s = .next t) :
    Sys2Proof.core.run (n + 1) s = Sys2Proof.core.run n t := by
  have h : Sys2Proof.core.step s = .next t := h
  refine (Host.Core.run.eq_2 Sys2Proof.core s n).trans ?_
  rw [h]

/-- A clear latch has the meaning of every latch. -/
theorem State.latchInv_of_clear {s : State} (h : s.fault = FaultLatch.clear) : s.LatchInv := by
  rw [State.LatchInv, h]
  rfl

/-- A latch that holds no error is clear. -/
theorem State.clear_of_latchInv {s : State} (h : s.LatchInv) (hk : s.fault.kind = .none) :
    s.fault = FaultLatch.clear := by
  rw [State.LatchInv, hk] at h
  exact h

end Sys2Proof.Machine
end

