-- ==== Sys2Proof/Tests/Slice0.lean ====
section
/-!
SUPPORT. The model's own tests. Expected values are the spec's: 95_test_vectors.md for words, decoding and single
steps, opcode_table.json for the table, and the rules named at each test.
-/

namespace Sys2Proof.Tests

open Sys2Proof.Machine

/-- A reset state with `pc` and some registers set and one word placed at `pc`. -/
def start (pc w : Word) (regs : List (Reg × Byte)) : State :=
  (regs.foldl (fun (s : State) p => s.setReg p.1 p.2) { State.reset with pc := pc }).placeWord w

/-- What is seen of the state after one step. -/
def seen {α : Type} (s : State) (f : State → α) : Option α :=
  match step s with
  | .next t => some (f t)
  | .fault _ => none
  | .refused _ => none

/-- One step of a word at 0x200: the register `r`, VF and `pc` after it. -/
def after (w : Word) (regs : List (Reg × Byte)) (r : Reg) : Option (Byte × Byte × Word) :=
  seen (start 0x200 w regs) fun t => (t.reg r, t.reg 15, t.pc)

/-! ### WellFormed: a term each check refuses, and one at its bound it accepts (R119, R16) -/

theorem test_launch_too_long : Launch.wellFormed ⟨0xFFF, [0x12, 0x00]⟩ = false := by decide
theorem test_launch_that_just_fits : Launch.wellFormed ⟨0xFFE, [0x12, 0x00]⟩ = true := by decide
theorem test_vf_as_source_breaks_contract : (Instr.addr 2 15).keepsVFContract = false := by decide
theorem test_vf_as_destination_breaks_contract : (Instr.ld 15 7).keepsVFContract = false := by decide
theorem test_contract_kept : (Instr.addr 2 14).keepsVFContract = true := by decide
theorem test_memory_unsorted : ¬ Memory.wf [(0x201, 1), (0x200, 2)] := by decide
theorem test_memory_lists_zero : ¬ Memory.wf [(0x200, 0)] := by decide
theorem test_memory_past_end : ¬ Memory.wf [(0x1000, 1)] := by decide

/-! ### Decoding, words written out from the encodings (95_test_vectors.md 2.1, R51, R60) -/

theorem test_decode_jp : decode 0b0001_1111_1111_1111 = .ok (.jp 0xFFF) := by decide
theorem test_decode_call : decode 0b0010_1010_1011_1100 = .ok (.call 0xABC) := by decide
theorem test_decode_se : decode 0b0011_0001_0010_0011 = .ok (.se 1 0x23) := by decide
theorem test_decode_sne : decode 0b0100_0001_0010_0011 = .ok (.sne 1 0x23) := by decide
theorem test_decode_ser : decode 0b0101_0001_0010_1111 = .ok (.ser 1 2) := by decide
theorem test_decode_ld : decode 0b0110_0001_0010_0011 = .ok (.ld 1 0x23) := by decide
theorem test_decode_add : decode 0b0111_0001_0010_0011 = .ok (.add 1 0x23) := by decide
theorem test_decode_ldr : decode 0b1000_0001_0010_0000 = .ok (.ldr 1 2) := by decide
theorem test_decode_or : decode 0b1000_0001_0010_0001 = .ok (.or 1 2) := by decide
theorem test_decode_and : decode 0b1000_0001_0010_0010 = .ok (.and 1 2) := by decide
theorem test_decode_xor : decode 0b1000_0001_0010_0011 = .ok (.xor 1 2) := by decide
theorem test_decode_addr : decode 0b1000_0010_1111_0100 = .ok (.addr 2 15) := by decide
theorem test_decode_sub : decode 0b1000_0001_0010_0101 = .ok (.sub 1 2) := by decide
theorem test_decode_shr : decode 0b1000_0001_1111_0110 = .ok (.shr 1) := by decide
theorem test_decode_subn : decode 0b1000_0001_0010_0111 = .ok (.subn 1 2) := by decide
theorem test_decode_shl : decode 0b1000_0001_0010_1110 = .ok (.shl 1) := by decide
theorem test_decode_illegal :
    [0x0000, 0x00E0, 0x0FFF, 0x8128, 0x812D, 0x812F, 0x9120, 0xE19E, 0xFFFF].all
      (fun w => decide (decode w = .error (.unimplemented w))) = true := by decide
theorem test_decode_truncated : decodeBytes [0x12] = .error .truncated := by decide
theorem test_encode_addr : encode (.addr 2 15) = 0x82F4 := by decide
theorem test_encode_shl : encode (.shl 1) = 0x810E := by decide
theorem test_opcode_rows_disjoint :
    opcodeTable.Pairwise (fun r q => r.value &&& (r.mask &&& q.mask) ≠ q.value &&& (r.mask &&& q.mask)) := by decide
theorem test_table_words_decode :
    opcodeTable.map (fun r => (decodeTableWord 16 r.value.toNat).map fun i => (opcodeRow i).value) =
      opcodeTable.map (fun r => some r.value) := by decide
theorem test_asm : asmText (.addr 2 15) = ['A', 'D', 'D', 'R', ' ', 'V', '2', ',', ' ', 'V', 'F'] := by decide

/-! ### One step, by family (95_test_vectors.md 2.2 to 2.7) -/

theorem test_jp_odd : seen (start 0x200 0x1201 []) (fun t => t.pc) = some 0x201 := by decide
theorem test_call :
    seen { start 0x204 0x2ABC [] with sp := 3 } (fun t => (t.entry 3, t.sp, t.pc)) = some (0x206, 4, 0xABC) := by decide
theorem test_call_at_top_of_memory :
    seen (start 0xFFE 0x2FFE []) (fun t => (t.entry 0, t.sp, t.pc)) = some (0x1000, 1, 0xFFE) := by decide
theorem test_se_skips : (after 0x3A42 [(10, 0x42)] 10).map (fun p => p.2.2) = some 0x204 := by decide
theorem test_se_does_not_skip : (after 0x3A42 [(10, 0x43)] 10).map (fun p => p.2.2) = some 0x202 := by decide
theorem test_sne_skips : (after 0x4A42 [(10, 0x43)] 10).map (fun p => p.2.2) = some 0x204 := by decide
theorem test_sne_does_not_skip : (after 0x4A42 [(10, 0x42)] 10).map (fun p => p.2.2) = some 0x202 := by decide
theorem test_ser_ignores_n : (after 0x5AB7 [(10, 7), (11, 7)] 10).map (fun p => p.2.2) = some 0x204 := by decide
theorem test_ser_does_not_skip : (after 0x5AB0 [(10, 7), (11, 8)] 10).map (fun p => p.2.2) = some 0x202 := by decide
theorem test_ld_into_vf : after 0x6F07 [(15, 1)] 15 = some (0x07, 0x07, 0x202) := by decide
theorem test_add_wraps_without_carry : after 0x7A01 [(10, 0xFF), (15, 0x55)] 10 = some (0x00, 0x55, 0x202) := by decide
theorem test_add_decrement : after 0x7AFF [] 10 = some (0xFF, 0x00, 0x202) := by decide
theorem test_ldr : after 0x8120 [(1, 0x11), (2, 0x22)] 1 = some (0x22, 0x00, 0x202) := by decide
theorem test_or : after 0x8121 [(1, 0x0F), (2, 0xF0), (15, 9)] 1 = some (0xFF, 0x09, 0x202) := by decide
theorem test_and : after 0x8122 [(1, 0x3C), (2, 0x0F)] 1 = some (0x0C, 0x00, 0x202) := by decide
theorem test_xor : after 0x8123 [(1, 0x3C), (2, 0x0F)] 1 = some (0x33, 0x00, 0x202) := by decide
theorem test_addr_carry : after 0x8124 [(1, 0xFF), (2, 0x01)] 1 = some (0x00, 0x01, 0x202) := by decide
theorem test_addr_result_wins_in_vf : after 0x8F24 [(15, 0xF0), (2, 0x20)] 15 = some (0x10, 0x10, 0x202) := by decide
theorem test_sub_equal_is_strict : after 0x8125 [(1, 0x10), (2, 0x10)] 1 = some (0x00, 0x00, 0x202) := by decide
theorem test_sub_latches_vf : after 0x82F5 [(2, 0x05), (15, 0x03)] 2 = some (0x02, 0x01, 0x202) := by decide
theorem test_shr_ignores_y : after 0x81F6 [(1, 0x04), (15, 0x99)] 1 = some (0x02, 0x00, 0x202) := by decide
theorem test_shr_of_vf : after 0x8F06 [(15, 0x03)] 15 = some (0x01, 0x01, 0x202) := by decide
theorem test_subn : after 0x8127 [(1, 0x10), (2, 0x30)] 1 = some (0x20, 0x01, 0x202) := by decide
theorem test_subn_latches_vf : after 0x82F7 [(2, 0x02), (15, 0x05)] 2 = some (0x03, 0x01, 0x202) := by decide
theorem test_shl : after 0x810E [(1, 0x81)] 1 = some (0x02, 0x01, 0x202) := by decide
theorem test_shl_of_vf : after 0x8F0E [(15, 0x81)] 15 = some (0x02, 0x02, 0x202) := by decide
theorem test_table_word_runs_from_reset :
    seen (State.reset.withFetchWord 16 0x6005) (fun t => (t.reg 0, t.pc)) = some (5, 2) := by decide

/-! ### Errors and halting (95_test_vectors.md 2.8, L1-6, L1-9) -/

theorem test_illegal_word :
    seen (start 0x300 0x8128 []) (fun t => (t.fault, t.pc)) = some (⟨.unimplementedOpcode, 0x8128, 0x300⟩, 0x300) := by
  decide
theorem test_fetch_at_last_byte :
    seen { State.reset with pc := 0xFFF } (fun t => (t.fault, t.pc)) = some (⟨.outOfBoundsFetch, 0, 0xFFF⟩, 0xFFF) := by
  decide
theorem test_stack_overflow :
    seen { start 0x204 0x2ABC [] with sp := 16 } (fun t => (t.fault, t.pc, t.sp)) =
      some (⟨.stackOverflow, 0, 0x204⟩, 0x204, 16) := by decide
theorem test_halted_is_no_step :
    seen ((start 0x200 0x6005 []).raise .stackOverflow) (fun t => (t.reg 0, t.pc, t.fault.kind)) =
      some (0, 0x200, .stackOverflow) := by decide
theorem test_fetch_addresses : (start 0x200 0x6005 []).fetchAddresses = [0x200, 0x201] := by decide
theorem test_boot :
    (match System.initial.acts (bootSequence ⟨0x200, [0x60, 0x05]⟩) with
      | .next z => z.block.pc == 0x200 && z.block.mem == [(0x200, 0x60), (0x201, 0x05)]
      | .fault _ => false
      | .refused _ => false) = true := by decide

/-! ### Witnesses: for each statement with hypotheses, a state and operands that meet them all -/

/-- The bytes of a word at `pc`, as the witnesses give them. -/
theorem witness_StepRunsTheDecodedInstruction :
    let s := start 0xFFE 0x6A42 []
    s.fault.kind = .none ∧ s.pc.toNat ≤ 0xFFE ∧ s.mem.read s.pc.toNat = .ok 0x6A ∧
      s.mem.read (s.pc.toNat + 1) = .ok 0x42 ∧ decode (0x6A#8 ++ 0x42#8) = .ok (.ld 10 0x42) := by
  exact ⟨rfl, by decide, rfl, rfl, by decide⟩

theorem witness_IllegalWordRaisesUnimplementedOpcode :
    let s := start 0xFFE 0x9001 []
    s.fault.kind = .none ∧ s.pc.toNat ≤ 0xFFE ∧ s.mem.read s.pc.toNat = .ok 0x90 ∧
      s.mem.read (s.pc.toNat + 1) = .ok 0x01 ∧ decode (0x90#8 ++ 0x01#8) = .error (.unimplemented 0x9001) := by
  exact ⟨rfl, by decide, rfl, rfl, by decide⟩

theorem witness_FetchPastMemoryRaisesOutOfBounds :
    let s : State := { State.reset with pc := 0xFFF }
    s.fault.kind = .none ∧ 0xFFE < s.pc.toNat := by decide

theorem witness_HaltedBlockNeverChanges : (State.reset.raise .stackOverflow).fault.kind ≠ .none := by decide

theorem witness_ResetZeroesEveryElement : 4095 < 4096 := by decide

theorem witness_DecodeIsTheDispatchersCase :
    0x8#4 ∈ [0x8#4, 0x9#4, 0xA#4, 0xB#4, 0xC#4, 0xD#4, 0xF#4] ∧
      0xF#4 ∈ [0x0#4, 0x9#4, 0xA#4, 0xB#4, 0xC#4, 0xD#4, 0xE#4, 0xF#4] := by decide

theorem witness_EncodeOfDecodeIsTheWordLessIgnoredFields : decode 0x5127 = .ok (.ser 1 2) := by decide

theorem witness_DecoderAgreesWithOpcodeTable :
    decode 0x81F6 = .ok (.shr 1) ∧ opcodeRow (.shr 1) ∈ opcodeTable ∧ (opcodeRow (.shr 1)).has 0x81F6 = true := by decide

/-- Each clause of `ErrorsHaveExactlyTheirCauses` at its bound: 0xFFF, an illegal word at 0xFFE, CALL with `sp` 16,
and a CALL with `sp` 15 that raises nothing. -/
theorem witness_ErrorsHaveExactlyTheirCauses :
    seen { State.reset with pc := 0xFFF } (fun t => t.fault.kind) = some .outOfBoundsFetch ∧
    seen (start 0xFFE 0x0000 []) (fun t => t.fault.kind) = some .unimplementedOpcode ∧
    seen { start 0xFFE 0x2000 [] with sp := 16 } (fun t => t.fault.kind) = some .stackOverflow ∧
    seen { start 0xFFE 0x2000 [] with sp := 15 } (fun t => t.fault.kind) = some .none := by decide

theorem witness_OutputsShowTheLatchedError : State.reset.fault.kind = .none := by decide

theorem witness_JpReplacesPc : (0x200 : Addr).zeroExtend 16 = (start 0x200 0x1200 []).pc := by decide

theorem witness_CallPushesReturnAddress :
    ({ State.reset with sp := 15 } : State).sp.toNat < 16 ∧ ({ State.reset with sp := 16 } : State).sp.toNat = 16 := by
  decide

theorem witness_CallOnFullStackRaisesStackOverflow :
    16 ≤ ({ State.reset with sp := 16 } : State).sp.toNat ∧ 16 ≤ ({ State.reset with sp := 31 } : State).sp.toNat := by
  decide

/-- Words that match the rows of LD, ADD, LDR, OR, AND and XOR, with VF as an operand. -/
theorem witness_words_of_stated_rows :
    (0x6F07 : Word) &&& 0xF000 = 0x6000 ∧ (0x7FFF : Word) &&& 0xF000 = 0x7000 ∧ (0x8FF0 : Word) &&& 0xF00F = 0x8000 ∧
      (0x8F11 : Word) &&& 0xF00F = 0x8001 ∧ (0x81F2 : Word) &&& 0xF00F = 0x8002 ∧
      (0x8113 : Word) &&& 0xF00F = 0x8003 := by decide

/-- The register clauses of the result statements: a destination that is not VF, and a register that is neither. -/
theorem witness_register_clauses : (14 : Reg) ≠ 15 ∧ (0 : Reg) ≠ 14 ∧ (0 : Reg) ≠ 15 := by decide

theorem witness_OnlyDestinationAndFlagChange :
    (∃ t, exec (.addr 1 2) State.reset = .next t) ∧ (Instr.addr 1 2).dest ≠ some 14 ∧
      ((Instr.addr 1 2).writesFlag = true → (14 : Reg) ≠ 15) := ⟨⟨_, rfl⟩, by decide, fun _ => by decide⟩

theorem witness_FlagIsZeroOrOneAndNobodyElseWritesIt :
    ((∃ t, exec (.sub 14 15) State.reset = .next t) ∧ (Instr.sub 14 15).dest ≠ some 15 ∧
      (Instr.sub 14 15).writesFlag = true) ∧
    (∃ t, exec (.add 14 0xFF) State.reset = .next t) ∧ (Instr.add 14 0xFF).dest ≠ some 15 ∧
      (Instr.add 14 0xFF).writesFlag = false := by
  refine ⟨⟨⟨_, rfl⟩, by decide, rfl⟩, ⟨_, rfl⟩, by decide, rfl⟩

theorem witness_OnlyCallChangesTheStack :
    seen { start 0xFFE 0x2000 [] with sp := 15 } (fun t => (t.sp, t.entry 15)) = some (16, 0x1000) := by decide

theorem witness_RunLeavesMemoryTimersAndIAlone : ∃ t, Sys2Proof.core.run 2 (start 0x200 0x6005 []) = .next t :=
  ⟨_, rfl⟩

theorem witness_JumpToSelfIsSafeForever :
    let s := start 0xFFE 0x1FFE []
    s.fault.kind = .none ∧ s.pc.toNat ≤ 0xFFE ∧ s.fetchWord = .ok 0x1FFE ∧ decode 0x1FFE = .ok (.jp 0xFFE) ∧
      (0xFFE : Addr).zeroExtend 16 = s.pc := by
  exact ⟨rfl, by decide, rfl, by decide, by decide⟩

theorem witness_PopAfterPushGivesThePushedValue :
    let s : State := { State.reset with sp := 15 }
    (s.push 0x206).sp.toNat ≤ 16 ∧ s.sp.toNat < 16 ∧ State.reset.sp.toNat ≤ 16 ∧ State.reset.sp.toNat = 0 := by decide

theorem witness_CanonicalMemoriesThatReadAlikeAreEqual :
    let m : Memory := Memory.write (Memory.write [] 0xFFF 1) 0 2
    let m' : Memory := Memory.write (Memory.write [] 0 2) 0xFFF 1
    m.wf ∧ m'.wf ∧ ∀ a, m.read a = m'.read a := by
  refine ⟨by decide, by decide, fun a => ?_⟩
  rfl

theorem witness_StepKeepsStateInvariant :
    (start 0x200 0x6005 []).Inv ∧ ∃ t, step (start 0x200 0x6005 []) = .next t :=
  ⟨⟨by decide, by decide, fun _ h => absurd h (Nat.not_lt_zero _), by decide⟩, _, rfl⟩

theorem witness_StepKeepsLatchInvariant :
    (start 0x200 0x9000 []).LatchInv ∧ ∃ t, step (start 0x200 0x9000 []) = .next t :=
  ⟨State.latchInv_of_clear rfl, _, rfl⟩

theorem witness_AgentsKeepSystemInvariant :
    System.initial.Inv ∧ (∃ z, System.initial.act (.load ⟨0xFFE, [0x12, 0x00]⟩) = .next z) ∧
      ∃ z, System.initial.act .step = .next z := by
  refine ⟨⟨⟨by decide, by decide, fun _ h => absurd h (Nat.not_lt_zero _), by decide⟩, ?_, fun _ => rfl⟩, ⟨_, rfl⟩, _, rfl⟩
  exact State.latchInv_of_clear rfl

theorem witness_OnlyResetLeavesTheHaltedState :
    let y : System := ⟨State.reset.raise .stackOverflow, .running⟩
    y.block.fault.kind ≠ .none ∧ AgentAction.step ≠ .reset ∧ ∃ z, y.act .step = .next z := by
  exact ⟨by decide, by decide, _, rfl⟩

theorem witness_BootPortIsClosedDuringARun :
    let y : System := ⟨start 0x200 0x6005 [], .running⟩
    y.phase = .running ∧ AgentAction.tickDelay ≠ .reset ∧ AgentAction.tickDelay ≠ .step ∧
      (∃ z, y.act .tickDelay = .next z) ∧ ∃ z, y.act .step = .next z := by
  exact ⟨rfl, by decide, by decide, ⟨_, rfl⟩, _, rfl⟩

/-- Both clauses of `BootPlacesTheProgram` at the bound, and an address just below and just past a program. -/
theorem witness_BootPlacesTheProgram :
    (let l : Launch := ⟨0xFFE, [0x12, 0x00]⟩; l.offset.toNat + l.rom.length ≤ 4096 ∧ 1 < l.rom.length ∧
      0xFFD < l.offset.toNat) ∧
    (let l : Launch := ⟨0x200, [0x12]⟩; 0x201 < 4096 ∧ l.offset.toNat + l.rom.length ≤ 0x201) ∧
    (let l : Launch := ⟨0xFFF, [0x12, 0x00]⟩; 4096 < l.offset.toNat + l.rom.length) := by decide

end Sys2Proof.Tests
end

section
/-!
What no instruction reads or writes: memory (R42), the address register `I` and the timers (R21, R22, R78).
-/

namespace Sys2Proof.Machine

/-- A skip after the advance decides by its condition alone, whatever the state holds in the unread fields. -/
theorem State.advance_skipIf_withUnread (s : State) (c : Bool) (m : Memory) (i : Word) (dt st : Byte) :
    ({ s with mem := m, i := i, dt := dt, st := st } : State).advance.skipIf c =
      { s.advance.skipIf c with mem := m, i := i, dt := dt, st := st } := by
  cases c <;> rfl

/-- No instruction writes memory, `I` or a timer, not even a CALL that raises. -/
theorem exec_keepsUnread {ins : Instr} {s t : State} (h : exec ins s = .next t) :
    t.mem = s.mem ∧ t.i = s.i ∧ t.dt = s.dt ∧ t.st = s.st := by
  obtain ⟨t', ht', hcase⟩ := exec_cases ins s
  cases h.symm.trans ht'
  rcases hcase with ⟨_, _, _, rfl⟩ | ⟨_, _, hmem, ⟨hi, hdt, hst⟩, _⟩
  · simp
  · exact ⟨hmem, hi, hdt, hst⟩

/-- No instruction reads memory, `I` or a timer: with other values in them it does the same to all the rest of the
state. Only CALL and the skips branch, on `sp` and on the latched registers; every other instruction computes its
answer from registers and operands with no branch. -/
theorem exec_withUnread {ins : Instr} {s t : State} (h : exec ins s = .next t) (m : Memory) (i : Word)
    (dt st : Byte) :
    exec ins { s with mem := m, i := i, dt := dt, st := st } =
      .next { t with mem := m, i := i, dt := dt, st := st } := by
  cases ins with
  | call a =>
    rcases Nat.lt_or_ge s.sp.toNat 16 with hsp | hsp
    · cases (exec_call a hsp).symm.trans h
      exact exec_call a hsp
    · cases (exec_call_full a hsp).symm.trans h
      exact exec_call_full a hsp
  | se x kk =>
    cases (exec_se x kk s).symm.trans h
    exact congrArg _ (State.advance_skipIf_withUnread ..)
  | sne x kk =>
    cases (exec_sne x kk s).symm.trans h
    exact congrArg _ (State.advance_skipIf_withUnread ..)
  | ser x y =>
    cases (exec_ser x y s).symm.trans h
    exact congrArg _ (State.advance_skipIf_withUnread ..)
  | _ =>
    cases h
    rfl

/-- Settles O36: every instruction answers a next state (`exec_cases`), keeps memory (`exec_keepsUnread`) and does
the same with other contents (`exec_withUnread`). -/
theorem noInstructionTouchesMemory : Obligations.NoInstructionTouchesMemory := by
  intro ins s m
  obtain ⟨t, ht, -⟩ := exec_cases ins s
  obtain ⟨hmem, hi, hdt, hst⟩ := exec_keepsUnread ht
  refine ⟨t, ht, hmem, ?_⟩
  simpa only [← hi, ← hdt, ← hst] using exec_withUnread ht m s.i s.dt s.st

end Sys2Proof.Machine
end

section
/-!
What the decoder answers on a word written as its fields (R52, R53, R55): level 1 reads the group, level 2 the low
nibble of group 8, and the operands are the fields of the word's format.
-/

namespace Sys2Proof

/-! ### Level 1: the group (R52) -/

theorem decode_jp (a : Addr) : decode (wordA 0x1#4 a) = .ok (.jp a) := by
  simp only [decode, fieldG_wordA, fieldADDR_wordA]

theorem decode_call (a : Addr) : decode (wordA 0x2#4 a) = .ok (.call a) := by
  simp only [decode, fieldG_wordA, fieldADDR_wordA]

theorem decode_se (x : Reg) (kk : Byte) : decode (wordXK 0x3#4 x kk) = .ok (.se x kk) := by
  simp only [decode, fieldG_wordXK, fieldX_wordXK, fieldKK_wordXK, regOf_nibbleOf]

theorem decode_sne (x : Reg) (kk : Byte) : decode (wordXK 0x4#4 x kk) = .ok (.sne x kk) := by
  simp only [decode, fieldG_wordXK, fieldX_wordXK, fieldKK_wordXK, regOf_nibbleOf]

/-- Level 1 alone selects SER, so its low nibble may hold anything (R54, C10). -/
theorem decode_ser (x y : Reg) (n : Nibble) : decode (wordXY 0x5#4 x y n) = .ok (.ser x y) := by
  simp only [decode, fieldG_wordXY, fieldX_wordXY, fieldY_wordXY, regOf_nibbleOf]

theorem decode_ld (x : Reg) (kk : Byte) : decode (wordXK 0x6#4 x kk) = .ok (.ld x kk) := by
  simp only [decode, fieldG_wordXK, fieldX_wordXK, fieldKK_wordXK, regOf_nibbleOf]

theorem decode_add (x : Reg) (kk : Byte) : decode (wordXK 0x7#4 x kk) = .ok (.add x kk) := by
  simp only [decode, fieldG_wordXK, fieldX_wordXK, fieldKK_wordXK, regOf_nibbleOf]

theorem decode_group8 (x y : Reg) (n : Nibble) :
    decode (wordXY 0x8#4 x y n) = decodeGroup8 (wordXY 0x8#4 x y n) := by
  simp only [decode, fieldG_wordXY]

/-- A group with no handler is unimplemented, whatever the other fields hold (R56). -/
theorem decode_of_unhandled_group {w : Word}
    (hg : fieldG w ∈ [0x0#4, 0x9#4, 0xA#4, 0xB#4, 0xC#4, 0xD#4, 0xE#4, 0xF#4]) :
    decode w = .error (.unimplemented w) := by
  unfold decode
  split
  case h_9 => rfl
  all_goals
    rename_i handled
    exact absurd (handled ▸ hg) (by decide)

/-! ### Level 2: the low nibble of group 8 (R53) -/

theorem decodeGroup8_ldr (g : Nibble) (x y : Reg) : decodeGroup8 (wordXY g x y 0x0#4) = .ok (.ldr x y) := by
  simp only [decodeGroup8, fieldN_wordXY, fieldX_wordXY, fieldY_wordXY, regOf_nibbleOf]

theorem decodeGroup8_or (g : Nibble) (x y : Reg) : decodeGroup8 (wordXY g x y 0x1#4) = .ok (.or x y) := by
  simp only [decodeGroup8, fieldN_wordXY, fieldX_wordXY, fieldY_wordXY, regOf_nibbleOf]

theorem decodeGroup8_and (g : Nibble) (x y : Reg) : decodeGroup8 (wordXY g x y 0x2#4) = .ok (.and x y) := by
  simp only [decodeGroup8, fieldN_wordXY, fieldX_wordXY, fieldY_wordXY, regOf_nibbleOf]

theorem decodeGroup8_xor (g : Nibble) (x y : Reg) : decodeGroup8 (wordXY g x y 0x3#4) = .ok (.xor x y) := by
  simp only [decodeGroup8, fieldN_wordXY, fieldX_wordXY, fieldY_wordXY, regOf_nibbleOf]

theorem decodeGroup8_addr (g : Nibble) (x y : Reg) : decodeGroup8 (wordXY g x y 0x4#4) = .ok (.addr x y) := by
  simp only [decodeGroup8, fieldN_wordXY, fieldX_wordXY, fieldY_wordXY, regOf_nibbleOf]

theorem decodeGroup8_sub (g : Nibble) (x y : Reg) : decodeGroup8 (wordXY g x y 0x5#4) = .ok (.sub x y) := by
  simp only [decodeGroup8, fieldN_wordXY, fieldX_wordXY, fieldY_wordXY, regOf_nibbleOf]

/-- A shift right has one operand, so Y may hold anything (R54). -/
theorem decodeGroup8_shr (g : Nibble) (x y : Reg) : decodeGroup8 (wordXY g x y 0x6#4) = .ok (.shr x) := by
  simp only [decodeGroup8, fieldN_wordXY, fieldX_wordXY, regOf_nibbleOf]

theorem decodeGroup8_subn (g : Nibble) (x y : Reg) : decodeGroup8 (wordXY g x y 0x7#4) = .ok (.subn x y) := by
  simp only [decodeGroup8, fieldN_wordXY, fieldX_wordXY, fieldY_wordXY, regOf_nibbleOf]

/-- A shift left has one operand, so Y may hold anything (R54). -/
theorem decodeGroup8_shl (g : Nibble) (x y : Reg) : decodeGroup8 (wordXY g x y 0xE#4) = .ok (.shl x) := by
  simp only [decodeGroup8, fieldN_wordXY, fieldX_wordXY, regOf_nibbleOf]

/-- A low nibble with no handler is unimplemented, whatever the operand fields hold (R56). -/
theorem decodeGroup8_of_unhandled_low {w : Word}
    (hn : fieldN w ∈ [0x8#4, 0x9#4, 0xA#4, 0xB#4, 0xC#4, 0xD#4, 0xF#4]) :
    decodeGroup8 w = .error (.unimplemented w) := by
  unfold decodeGroup8
  simp only
  split
  case h_10 => rfl
  all_goals
    rename_i handled
    exact absurd (handled ▸ hn) (by decide)

end Sys2Proof

namespace Sys2Proof.Machine

/-- Settles O4: a word written as its nibbles is a word of the group's format (`wordA`, `wordXK`, `wordXY`), and each
clause is the decoder's equation at that format. -/
theorem decodeIsTheDispatchersCase : Obligations.DecodeIsTheDispatchersCase := by
  refine ⟨decode_jp, decode_call, fun x => decode_se x.toFin, fun x => decode_sne x.toFin,
    fun x y => decode_ser x.toFin y.toFin, fun x => decode_ld x.toFin, fun x => decode_add x.toFin, ?ldr, ?or, ?and,
    ?xor, ?addr, ?sub, ?shr, ?subn, ?shl, ?lowUnhandled, ?groupUnhandled⟩
  case ldr => exact fun x y => (decode_group8 x.toFin y.toFin _).trans (decodeGroup8_ldr ..)
  case or => exact fun x y => (decode_group8 x.toFin y.toFin _).trans (decodeGroup8_or ..)
  case and => exact fun x y => (decode_group8 x.toFin y.toFin _).trans (decodeGroup8_and ..)
  case xor => exact fun x y => (decode_group8 x.toFin y.toFin _).trans (decodeGroup8_xor ..)
  case addr => exact fun x y => (decode_group8 x.toFin y.toFin _).trans (decodeGroup8_addr ..)
  case sub => exact fun x y => (decode_group8 x.toFin y.toFin _).trans (decodeGroup8_sub ..)
  case shr => exact fun x y => (decode_group8 x.toFin y.toFin _).trans (decodeGroup8_shr ..)
  case subn => exact fun x y => (decode_group8 x.toFin y.toFin _).trans (decodeGroup8_subn ..)
  case shl => exact fun x y => (decode_group8 x.toFin y.toFin _).trans (decodeGroup8_shl ..)
  case lowUnhandled =>
    intro x y n hn
    have hlow : fieldN (wordXY 0x8#4 x.toFin y.toFin n) = n := fieldN_wordXY ..
    exact (decode_group8 x.toFin y.toFin n).trans (decodeGroup8_of_unhandled_low (hlow.symm ▸ hn))
  case groupUnhandled =>
    intro g x y n hg
    have hgroup : fieldG (wordXY g x.toFin y.toFin n) = g := fieldG_wordXY ..
    exact decode_of_unhandled_group (hgroup.symm ▸ hg)

end Sys2Proof.Machine
end

section
/-!
A step and the fields no instruction reads: the address register `I` and the timers (R78).
-/

namespace Sys2Proof.Machine

/-- Dispatch answers a next state, and the same one, less `I` and the timers, whatever these hold: a word without a
handler raises from `pc` and the word alone, and no instruction reads them. -/
theorem dispatchWord_withTimersAndI (w : Word) (s : State) (i : Word) (dt st : Byte) :
    ∃ t, dispatchWord w s = .next t ∧
      dispatchWord w { s with i := i, dt := dt, st := st } = .next { t with i := i, dt := dt, st := st } := by
  cases hd : decode w with
  | error e => exact ⟨_, dispatchWord_error hd s, dispatchWord_error hd _⟩
  | ok ins =>
    obtain ⟨t, ht, -⟩ := exec_cases ins s
    have hmem : t.mem = s.mem := (exec_keepsUnread ht).1
    refine ⟨t, (dispatchWord_ok hd s).trans ht, (dispatchWord_ok hd _).trans ?_⟩
    simpa only [← hmem] using exec_withUnread ht s.mem i dt st

/-- Settles O38, along the checks of a step (R106): the latch, the bound and the fetched word are the same whatever
`I` and the timers hold, so both steps take the same branch. -/
theorem stepIgnoresTimersAndI : Obligations.StepIgnoresTimersAndI := by
  intro s i dt st
  by_cases hclear : s.fault.kind = .none
  · rcases Nat.lt_or_ge 0xFFE s.pc.toNat with hpast | hfetch
    · exact ⟨_, step_outOfBounds hclear hpast, step_outOfBounds hclear hpast⟩
    · obtain ⟨t, ht, ht'⟩ := dispatchWord_withTimersAndI _ s i dt st
      have hword := State.fetchWord_inBounds hfetch
      exact ⟨t, (step_fetched hclear hfetch hword).trans ht,
        (step_fetched (s := { s with i := i, dt := dt, st := st }) hclear hfetch hword).trans ht'⟩
  · exact ⟨s, step_halted hclear, step_halted hclear⟩

end Sys2Proof.Machine
end

section
/-!
What CALL does through the call-stack unit (R82, R83).
-/

namespace Sys2Proof.Machine

theorem State.stackEmpty_iff (s : State) : s.stackEmpty = true ↔ s.sp.toNat = 0 :=
  decide_eq_true_iff.trans BitVec.toNat_inj.symm

/-- Settles O16: below 16 the state after CALL is the one `exec_call` names, and the rule of the push gives its `sp`
and its entries; at 16 the raise is `exec_call_full`. -/
theorem callPushesReturnAddress : Obligations.CallPushesReturnAddress := by
  refine ⟨fun s => ⟨fun hfull => ?_, s.not_stackFull_iff.2, s.stackEmpty_iff⟩, fun a s hfree => ?_, fun a s hfull => ?_⟩
  · exact s.stackFull_iff.2 hfull.ge
  · have hsp : (s.advance.push (s.pc + 2)).sp.toNat = s.sp.toNat + 1 :=
      State.push_sp_toNat (s := s.advance) hfree (s.pc + 2)
    have hentry := State.entry_push s.advance (s.pc + 2)
    exact ⟨_, exec_call a hfree, rfl, hsp, hentry, fun _ => rfl, ⟨rfl, rfl, rfl⟩, fun _ => rfl, rfl⟩
  · exact ⟨_, exec_call_full a hfull.ge, rfl⟩

end Sys2Proof.Machine
end

section
/-!
What the immediate instructions LD and ADD do (R89, R90): their words, and the write of one register after the
advance.
-/

namespace Sys2Proof

/-- A word that matches a row of mask 0xF000 is of format XK, with the row's group and its own fields. -/
theorem wordXK_of_mask {w : Word} {g : Nibble} (h : w &&& 0xF000 = wordXY g 0 0 0x0#4) :
    wordXK g (regOf (fieldX w)) (fieldKK w) = w := by
  have hgroup : fieldG w = g := (fieldG_of_mask h).trans (fieldG_wordXY ..)
  rw [← hgroup, wordXK_fields]

/-- The word decodes as the decoder's equation for its group says, at the fields of format XK. -/
theorem decodeXK_of_mask {w : Word} {g : Nibble} {instr : Reg → Byte → Instr}
    (hdecode : ∀ x kk, decode (wordXK g x kk) = .ok (instr x kk)) (h : w &&& 0xF000 = wordXY g 0 0 0x0#4) :
    decode w = .ok (instr (regOf (fieldX w)) (fieldKK w)) := by
  rw [← hdecode, wordXK_of_mask h]

end Sys2Proof

namespace Sys2Proof.Machine

theorem State.reg_setReg_same (s : State) (x : Reg) (b : Byte) : (s.setReg x b).reg x = b := by
  rw [State.reg_setReg, if_pos rfl]

theorem State.reg_setReg_of_ne (s : State) {x r : Reg} (h : r ≠ x) (b : Byte) : (s.setReg x b).reg r = s.reg r := by
  rw [State.reg_setReg, if_neg h]

theorem State.onlyRegsAndPc_advance_setReg (s : State) (x : Reg) (b : Byte) :
    s.OnlyRegsAndPc (s.advance.setReg x b) :=
  ⟨⟨rfl, fun _ => rfl⟩, ⟨rfl, rfl, rfl⟩, fun _ => rfl, rfl⟩

/-- Settles O21: LD is the write of KK after the advance (`exec_ld`), VF being a register like any other. -/
theorem ldLoadsImmediate : Obligations.LdLoadsImmediate := by
  refine ⟨fun _ hmask => decodeXK_of_mask decode_ld hmask, fun x kk s =>
    ⟨_, exec_ld x kk s, ?loaded, fun _ hne => s.advance.reg_setReg_of_ne hne _, rfl,
      s.onlyRegsAndPc_advance_setReg x _⟩⟩
  case loaded => exact State.reg_setReg_same ..

/-- Settles O22: ADD is the write of the 8-bit sum after the advance (`exec_add`), and that sum wraps modulo 256. -/
theorem addWrapsAndWritesNoFlag : Obligations.AddWrapsAndWritesNoFlag := by
  refine ⟨fun _ hmask => decodeXK_of_mask decode_add hmask, fun x kk s =>
    ⟨_, exec_add x kk s, ?sum, fun _ hne => s.advance.reg_setReg_of_ne hne _, rfl,
      s.onlyRegsAndPc_advance_setReg x _⟩⟩
  case sum => rw [State.reg_setReg_same, BitVec.toNat_add]

end Sys2Proof.Machine
end

section
/-!
What the group-8 instructions without a flag do (R91 to R94): their words, and the one register write they share.
-/

namespace Sys2Proof

/-- A word that matches a row of mask 0xF00F is of format XY, with the row's group and low nibble and its own
registers. -/
theorem wordXY_of_mask {w : Word} {g n : Nibble} (h : w &&& 0xF00F = wordXY g 0 0 n) :
    wordXY g (regOf (fieldX w)) (regOf (fieldY w)) n = w := by
  obtain ⟨hgroup, hlow⟩ := fieldGN_of_mask h
  rw [fieldG_wordXY] at hgroup
  rw [fieldN_wordXY] at hlow
  rw [← hgroup, ← hlow, wordXY_fields]

/-- A word of a group-8 row decodes as the level-2 equation for its low nibble says, at the fields of format XY. -/
theorem decodeXY_of_mask {w : Word} {n : Nibble} {instr : Reg → Reg → Instr}
    (hdecode : ∀ x y, decodeGroup8 (wordXY 0x8#4 x y n) = .ok (instr x y))
    (h : w &&& 0xF00F = wordXY 0x8#4 0 0 n) :
    decode w = .ok (instr (regOf (fieldX w)) (regOf (fieldY w))) := by
  rw [← hdecode, ← decode_group8, wordXY_of_mask h]

end Sys2Proof

namespace Sys2Proof.Machine

/-- One register write after the advance: the register holds the byte, and nothing else but `pc` has changed. The byte
may be computed from any register, the destination and VF included. -/
theorem State.advance_setReg_effect (s : State) (x : Reg) (b : Byte) :
    (s.advance.setReg x b).reg x = b ∧ (∀ r, r ≠ x → (s.advance.setReg x b).reg r = s.reg r) ∧
      (s.advance.setReg x b).pc = s.pc + 2 ∧ s.OnlyRegsAndPc (s.advance.setReg x b) :=
  ⟨s.advance.reg_setReg_same x b, fun _ hne => s.advance.reg_setReg_of_ne hne b, rfl,
    s.onlyRegsAndPc_advance_setReg x b⟩

/-- Settles O23: LDR is the write of `x[Y]` after the advance (`exec_ldr`), with VF a register like any other. -/
theorem ldrCopiesRegister : Obligations.LdrCopiesRegister :=
  ⟨fun _ hmask => decodeXY_of_mask (decodeGroup8_ldr 0x8#4) hmask, fun x y s =>
    ⟨_, exec_ldr x y s, s.advance_setReg_effect x _⟩⟩

/-- Settles O24: OR is the write of the bitwise OR of the latched operands after the advance (`exec_or`). -/
theorem orIsBitwiseAndWritesNoFlag : Obligations.OrIsBitwiseAndWritesNoFlag :=
  ⟨fun _ hmask => decodeXY_of_mask (decodeGroup8_or 0x8#4) hmask, fun x y s =>
    ⟨_, exec_or x y s, s.advance_setReg_effect x _⟩⟩

/-- Settles O25: AND is the write of the bitwise AND of the latched operands after the advance (`exec_and`). -/
theorem andIsBitwiseAndWritesNoFlag : Obligations.AndIsBitwiseAndWritesNoFlag :=
  ⟨fun _ hmask => decodeXY_of_mask (decodeGroup8_and 0x8#4) hmask, fun x y s =>
    ⟨_, exec_and x y s, s.advance_setReg_effect x _⟩⟩

/-- Settles O26: XOR is the write of the bitwise exclusive OR of the latched operands after the advance
(`exec_xor`). -/
theorem xorIsBitwiseAndWritesNoFlag : Obligations.XorIsBitwiseAndWritesNoFlag :=
  ⟨fun _ hmask => decodeXY_of_mask (decodeGroup8_xor 0x8#4) hmask, fun x y s =>
    ⟨_, exec_xor x y s, s.advance_setReg_effect x _⟩⟩

end Sys2Proof.Machine
end

section
/-!
The decoder against the encoder and the opcode table (R54, R56, R60): a word of a group is made of its fields, so the
decoded instruction carries all of the word that decoding looks at.
-/

namespace Sys2Proof

/-! ### Decoding an encoded instruction -/

/-- A word of group 8 decodes as level 2 answers on it. -/
theorem decode_of_decodeGroup8 {x y : Reg} {n : Nibble} {i : Instr}
    (h : decodeGroup8 (wordXY 0x8#4 x y n) = .ok i) : decode (wordXY 0x8#4 x y n) = .ok i :=
  (decode_group8 x y n).trans h

theorem decode_encode (i : Instr) : decode (encode i) = .ok i := by
  cases i with
  | jp a => exact decode_jp a
  | call a => exact decode_call a
  | se x kk => exact decode_se x kk
  | sne x kk => exact decode_sne x kk
  | ser x y => exact decode_ser x y _
  | ld x kk => exact decode_ld x kk
  | add x kk => exact decode_add x kk
  | ldr x y => exact decode_of_decodeGroup8 (decodeGroup8_ldr ..)
  | or x y => exact decode_of_decodeGroup8 (decodeGroup8_or ..)
  | and x y => exact decode_of_decodeGroup8 (decodeGroup8_and ..)
  | xor x y => exact decode_of_decodeGroup8 (decodeGroup8_xor ..)
  | addr x y => exact decode_of_decodeGroup8 (decodeGroup8_addr ..)
  | sub x y => exact decode_of_decodeGroup8 (decodeGroup8_sub ..)
  | shr x => exact decode_of_decodeGroup8 (decodeGroup8_shr ..)
  | subn x y => exact decode_of_decodeGroup8 (decodeGroup8_subn ..)
  | shl x => exact decode_of_decodeGroup8 (decodeGroup8_shl ..)

/-! ### Encoding a decoded word -/

theorem wordA_of_group {w : Word} {g : Nibble} (hg : fieldG w = g) : wordA g (fieldADDR w) = w &&& 0xFFFF := by
  rw [mask_all, ← hg, wordA_fields]

theorem wordXK_of_group {w : Word} {g : Nibble} (hg : fieldG w = g) :
    wordXK g (regOf (fieldX w)) (fieldKK w) = w &&& 0xFFFF := by
  rw [mask_all, ← hg, wordXK_fields]

theorem wordXY_of_group {w : Word} {g n : Nibble} (hg : fieldG w = g) (hn : fieldN w = n) :
    wordXY g (regOf (fieldX w)) (regOf (fieldY w)) n = w &&& 0xFFFF := by
  rw [mask_all, ← hg, ← hn, wordXY_fields]

/-- The low nibble, which SER ignores, is cleared. -/
theorem wordXY_without_low {w : Word} {g : Nibble} (hg : fieldG w = g) :
    wordXY g (regOf (fieldX w)) (regOf (fieldY w)) 0x0#4 = w &&& 0xFFF0 := by
  rw [mask_all_but_low, hg]

/-- The field Y, which the shifts ignore, is cleared. -/
theorem wordXY_without_Y {w : Word} {g n : Nibble} (hg : fieldG w = g) (hn : fieldN w = n) :
    wordXY g (regOf (fieldX w)) 0 n = w &&& 0xFF0F := by
  rw [mask_all_but_Y, hg, hn]

/-- The fields of a word that decodes to the instruction: the selectors of its row and its operands (R52, R53, R55). -/
def Instr.ReadFrom (w : Word) : Instr → Prop
  | .jp a => fieldG w = 0x1#4 ∧ a = fieldADDR w
  | .call a => fieldG w = 0x2#4 ∧ a = fieldADDR w
  | .se x kk => fieldG w = 0x3#4 ∧ x = regOf (fieldX w) ∧ kk = fieldKK w
  | .sne x kk => fieldG w = 0x4#4 ∧ x = regOf (fieldX w) ∧ kk = fieldKK w
  | .ser x y => fieldG w = 0x5#4 ∧ x = regOf (fieldX w) ∧ y = regOf (fieldY w)
  | .ld x kk => fieldG w = 0x6#4 ∧ x = regOf (fieldX w) ∧ kk = fieldKK w
  | .add x kk => fieldG w = 0x7#4 ∧ x = regOf (fieldX w) ∧ kk = fieldKK w
  | .ldr x y => (fieldG w = 0x8#4 ∧ fieldN w = 0x0#4) ∧ x = regOf (fieldX w) ∧ y = regOf (fieldY w)
  | .or x y => (fieldG w = 0x8#4 ∧ fieldN w = 0x1#4) ∧ x = regOf (fieldX w) ∧ y = regOf (fieldY w)
  | .and x y => (fieldG w = 0x8#4 ∧ fieldN w = 0x2#4) ∧ x = regOf (fieldX w) ∧ y = regOf (fieldY w)
  | .xor x y => (fieldG w = 0x8#4 ∧ fieldN w = 0x3#4) ∧ x = regOf (fieldX w) ∧ y = regOf (fieldY w)
  | .addr x y => (fieldG w = 0x8#4 ∧ fieldN w = 0x4#4) ∧ x = regOf (fieldX w) ∧ y = regOf (fieldY w)
  | .sub x y => (fieldG w = 0x8#4 ∧ fieldN w = 0x5#4) ∧ x = regOf (fieldX w) ∧ y = regOf (fieldY w)
  | .shr x => (fieldG w = 0x8#4 ∧ fieldN w = 0x6#4) ∧ x = regOf (fieldX w)
  | .subn x y => (fieldG w = 0x8#4 ∧ fieldN w = 0x7#4) ∧ x = regOf (fieldX w) ∧ y = regOf (fieldY w)
  | .shl x => (fieldG w = 0x8#4 ∧ fieldN w = 0xE#4) ∧ x = regOf (fieldX w)

theorem readFrom_of_decodeGroup8 {w : Word} {i : Instr} (hg : fieldG w = 0x8#4) (h : decodeGroup8 w = .ok i) :
    i.ReadFrom w := by
  unfold decodeGroup8 at h
  simp only at h
  split at h <;> cases h
  case h_7 hn => exact ⟨⟨hg, hn⟩, rfl⟩
  case h_9 hn => exact ⟨⟨hg, hn⟩, rfl⟩
  all_goals exact ⟨⟨hg, ‹_›⟩, rfl, rfl⟩

theorem readFrom_of_decode {w : Word} {i : Instr} (h : decode w = .ok i) : i.ReadFrom w := by
  unfold decode at h
  split at h
  case h_8 hg => exact readFrom_of_decodeGroup8 hg h
  all_goals cases h
  case h_1 hg => exact ⟨hg, rfl⟩
  case h_2 hg => exact ⟨hg, rfl⟩
  all_goals exact ⟨‹_›, rfl, rfl⟩

theorem encode_of_readFrom {w : Word} {i : Instr} (h : i.ReadFrom w) : encode i = w &&& heededBits i := by
  cases i with
  | jp | call =>
    obtain ⟨hg, rfl⟩ := h
    exact wordA_of_group hg
  | se | sne | ld | add =>
    obtain ⟨hg, rfl, rfl⟩ := h
    exact wordXK_of_group hg
  | ser =>
    obtain ⟨hg, rfl, rfl⟩ := h
    exact wordXY_without_low hg
  | shr | shl =>
    obtain ⟨⟨hg, hn⟩, rfl⟩ := h
    exact wordXY_without_Y hg hn
  | _ =>
    obtain ⟨⟨hg, hn⟩, rfl, rfl⟩ := h
    exact wordXY_of_group hg hn

theorem encode_of_decode {w : Word} {i : Instr} (h : decode w = .ok i) : encode i = w &&& heededBits i :=
  encode_of_readFrom (readFrom_of_decode h)

/-! ### The rows of the opcode table -/

/-- Every instruction as a term is in its row of the table. -/
theorem tableRow (i : Instr) : Laws.TableRow.Statement i := by
  cases i with
  | jp a => exact Laws.TableRow.jp a
  | call a => exact Laws.TableRow.call a
  | se x kk => exact Laws.TableRow.se x kk
  | sne x kk => exact Laws.TableRow.sne x kk
  | ser x y => exact Laws.TableRow.ser x y
  | ld x kk => exact Laws.TableRow.ld x kk
  | add x kk => exact Laws.TableRow.add x kk
  | ldr x y => exact Laws.TableRow.ldr x y
  | or x y => exact Laws.TableRow.or x y
  | and x y => exact Laws.TableRow.and x y
  | xor x y => exact Laws.TableRow.xor x y
  | addr x y => exact Laws.TableRow.addr x y
  | sub x y => exact Laws.TableRow.sub x y
  | shr x => exact Laws.TableRow.shr x
  | subn x y => exact Laws.TableRow.subn x y
  | shl x => exact Laws.TableRow.shl x

theorem OpcodeRow.has_iff (r : OpcodeRow) (w : Word) : r.has w = true ↔ w &&& r.mask = r.value := beq_iff_eq

/-- Decoding looks at every bit the row of the instruction fixes. -/
theorem heededBits_and_mask (i : Instr) : heededBits i &&& (opcodeRow i).mask = (opcodeRow i).mask := by
  cases i <;> simp only [heededBits, opcodeRow] <;> decide

/-- A word belongs to the row of the instruction it decodes to: under the row's mask it agrees with the encoding. -/
theorem opcodeRow_has_of_decode {w : Word} {i : Instr} (h : decode w = .ok i) : (opcodeRow i).has w = true := by
  obtain ⟨hrow, -⟩ := tableRow i
  rw [OpcodeRow.has_iff] at hrow ⊢
  rwa [encode_of_decode h, BitVec.and_assoc, heededBits_and_mask] at hrow

theorem opcodeRow_mem_opcodeTable (i : Instr) : opcodeRow i ∈ opcodeTable := by
  cases i <;> simp [opcodeTable, opcodeRow]

theorem exists_opcodeRow_of_mem {r : OpcodeRow} (h : r ∈ opcodeTable) : ∃ i, opcodeRow i = r := by
  rw [opcodeTable, ← List.map_append, List.mem_map] at h
  obtain ⟨i, -, hi⟩ := h
  exact ⟨i, hi⟩

/-- The word decodes as the decoder's equation for its group says, at the field of format A. -/
theorem decodeA_of_mask {w : Word} {g : Nibble} {instr : Addr → Instr}
    (hdecode : ∀ a, decode (wordA g a) = .ok (instr a)) (h : w &&& 0xF000 = wordXY g 0 0 0x0#4) :
    decode w = .ok (instr (fieldADDR w)) := by
  have hg : fieldG w = g := (fieldG_of_mask h).trans (fieldG_wordXY ..)
  rw [← hdecode, wordA_of_group hg, mask_all]

theorem decodeSer_of_mask {w : Word} (h : w &&& 0xF000 = wordXY 0x5#4 0 0 0x0#4) :
    decode w = .ok (.ser (regOf (fieldX w)) (regOf (fieldY w))) := by
  have hg : fieldG w = 0x5#4 := (fieldG_of_mask h).trans (fieldG_wordXY ..)
  rw [← decode_ser _ _ (fieldN w), wordXY_of_group hg rfl, mask_all]

/-- A word of a row of group 8 whose instruction names X alone decodes at X, whatever Y holds. -/
theorem decodeX_of_mask {w : Word} {n : Nibble} {instr : Reg → Instr}
    (hdecode : ∀ x y, decodeGroup8 (wordXY 0x8#4 x y n) = .ok (instr x))
    (h : w &&& 0xF00F = wordXY 0x8#4 0 0 n) : decode w = .ok (instr (regOf (fieldX w))) :=
  decodeXY_of_mask (instr := fun x _ => instr x) hdecode h

/-- A word of a row decodes, to an instruction of that row. -/
theorem decode_of_opcodeRow_has {w : Word} {i : Instr} (h : (opcodeRow i).has w = true) :
    ∃ j, decode w = .ok j ∧ opcodeRow j = opcodeRow i := by
  rw [OpcodeRow.has_iff] at h
  cases i with
  | jp => exact ⟨_, decodeA_of_mask decode_jp h, rfl⟩
  | call => exact ⟨_, decodeA_of_mask decode_call h, rfl⟩
  | se => exact ⟨_, decodeXK_of_mask decode_se h, rfl⟩
  | sne => exact ⟨_, decodeXK_of_mask decode_sne h, rfl⟩
  | ser => exact ⟨_, decodeSer_of_mask h, rfl⟩
  | ld => exact ⟨_, decodeXK_of_mask decode_ld h, rfl⟩
  | add => exact ⟨_, decodeXK_of_mask decode_add h, rfl⟩
  | ldr => exact ⟨_, decodeXY_of_mask (decodeGroup8_ldr _) h, rfl⟩
  | or => exact ⟨_, decodeXY_of_mask (decodeGroup8_or _) h, rfl⟩
  | and => exact ⟨_, decodeXY_of_mask (decodeGroup8_and _) h, rfl⟩
  | xor => exact ⟨_, decodeXY_of_mask (decodeGroup8_xor _) h, rfl⟩
  | addr => exact ⟨_, decodeXY_of_mask (decodeGroup8_addr _) h, rfl⟩
  | sub => exact ⟨_, decodeXY_of_mask (decodeGroup8_sub _) h, rfl⟩
  | shr => exact ⟨_, decodeX_of_mask (decodeGroup8_shr _) h, rfl⟩
  | subn => exact ⟨_, decodeXY_of_mask (decodeGroup8_subn _) h, rfl⟩
  | shl => exact ⟨_, decodeX_of_mask (decodeGroup8_shl _) h, rfl⟩

/-- A word of a row of the table decodes, to an instruction of that row. -/
theorem decode_of_mem_opcodeTable {w : Word} {r : OpcodeRow} (hr : r ∈ opcodeTable) (h : r.has w = true) :
    ∃ i, decode w = .ok i ∧ opcodeRow i = r := by
  obtain ⟨i, rfl⟩ := exists_opcodeRow_of_mem hr
  exact decode_of_opcodeRow_has h

end Sys2Proof

namespace Sys2Proof.Machine

/-- Settles O5: the encoding of each instruction is a word of its format, and the decoder's equation at that format
gives the operands back (`decode_encode`). -/
theorem decodeOfEncodeIsTheInstruction : Obligations.DecodeOfEncodeIsTheInstruction := decode_encode

/-- Settles O6: the decoded operands are the word's fields, and the encoding puts them back where they stood
(`encode_of_decode`). -/
theorem encodeOfDecodeIsTheWordLessIgnoredFields : Obligations.EncodeOfDecodeIsTheWordLessIgnoredFields :=
  fun _ _ => encode_of_decode

/-- Settles O7: a word of a row decodes to an instruction of that row, and back. Two rows of one word are then both
the row of the one instruction it decodes to. -/
theorem decoderAgreesWithOpcodeTable : Obligations.DecoderAgreesWithOpcodeTable := by
  refine ⟨fun w => ⟨?decodes, ?hasRow⟩, fun _ _ => opcodeRow_has_of_decode, fun w r r' hr hr' h h' => ?unique⟩
  case decodes =>
    rintro ⟨i, hi⟩
    exact ⟨_, opcodeRow_mem_opcodeTable i, opcodeRow_has_of_decode hi⟩
  case hasRow =>
    rintro ⟨r, hr, h⟩
    obtain ⟨i, hi, -⟩ := decode_of_mem_opcodeTable hr h
    exact ⟨i, hi⟩
  case unique =>
    obtain ⟨i, hi, rfl⟩ := decode_of_mem_opcodeTable hr h
    obtain ⟨j, hj, rfl⟩ := decode_of_mem_opcodeTable hr' h'
    cases hi.symm.trans hj
    rfl

/-- Settles O3: each word is closed, so the dispatcher computes its instruction. -/
theorem listedWordsDecodeAsTheSpecSays : Obligations.ListedWordsDecodeAsTheSpecSays :=
  ⟨rfl, rfl, rfl, rfl, rfl, rfl, rfl, rfl, rfl, rfl, rfl, rfl⟩

end Sys2Proof.Machine
end

section
/-!
What a step can do, with the cause of each error (R101, R106), and the invariants that follow.
-/

namespace Sys2Proof.Machine

/-! ### The causes of the errors -/

/-- The cause of an error in the state before the step, past the checks that come before it (R101, R106). No state
causes a `StackUnderflow`, since no word reaches the pop (R58, D10). -/
def Error.Cause (s : State) : Error → Prop
  | .outOfBoundsFetch => 0xFFE < s.pc.toNat
  | .unimplementedOpcode w => s.pc.toNat ≤ 0xFFE ∧ s.fetchWord = .ok w ∧ ∃ e, decode w = .error e
  | .stackOverflow =>
    s.pc.toNat ≤ 0xFFE ∧ 16 ≤ s.sp.toNat ∧ ∃ w a, s.fetchWord = .ok w ∧ decode w = .ok (.call a)
  | .stackUnderflow => False

/-- The step is the fetched instruction's own: it is in bounds, decodes, and is no CALL on a full stack. -/
structure State.Completes (s : State) (i : Instr) : Prop where
  clear : s.fault.kind = .none
  inBounds : s.pc.toNat ≤ 0xFFE
  fetched : ∃ w, s.fetchWord = .ok w ∧ decode w = .ok i
  free : ∀ a, i = .call a → s.sp.toNat < 16

/-- Everything a step can do, with the reason: nothing while halted, a raised error that has its cause, or an
instruction that completes. -/
theorem step_outcome (s : State) : ∃ t, step s = .next t ∧
    (s.fault.kind ≠ .none ∧ t = s ∨
      s.fault.kind = .none ∧ (∃ e : Error, e.Cause s ∧ t = s.raise e) ∨
      ∃ i, s.Completes i ∧ exec i s = .next t) := by
  rcases step_cases s with ⟨hhalted, hs⟩ | ⟨hclear, hpast, hs⟩ | ⟨hclear, hfetch, w, hw, ⟨e, he, hs⟩ | ⟨i, hi, hs⟩⟩
  · exact ⟨s, hs, .inl ⟨hhalted, rfl⟩⟩
  · exact ⟨_, hs, .inr (.inl ⟨hclear, .outOfBoundsFetch, hpast, rfl⟩)⟩
  · exact ⟨_, hs, .inr (.inl ⟨hclear, .unimplementedOpcode w, ⟨hfetch, hw, e, he⟩, rfl⟩)⟩
  · obtain ⟨t, ht, ⟨a, rfl, hfull, rfl⟩ | ⟨hfree, -⟩⟩ := exec_cases i s
    · exact ⟨_, hs.trans ht, .inr (.inl ⟨hclear, .stackOverflow, ⟨hfetch, hfull, w, a, hw, hi⟩, rfl⟩)⟩
    · exact ⟨t, hs.trans ht, .inr (.inr ⟨i, ⟨hclear, hfetch, ⟨w, hw, hi⟩, hfree⟩, ht⟩)⟩

/-- The same for a step whose next state is given. -/
theorem step_outcome_of {s t : State} (h : step s = .next t) :
    s.fault.kind ≠ .none ∧ t = s ∨
      s.fault.kind = .none ∧ (∃ e : Error, e.Cause s ∧ t = s.raise e) ∨
      ∃ i, s.Completes i ∧ exec i s = .next t := by
  obtain ⟨t', ht', hcase⟩ := step_outcome s
  cases h.symm.trans ht'
  exact hcase

/-- What an instruction that completes leaves: the part of `exec_cases` without the raise. -/
theorem State.Completes.effect {s t : State} {i : Instr} (hi : s.Completes i) (h : exec i s = .next t) :
    t.fault = s.fault ∧ t.mem = s.mem ∧
      ((∃ a : Addr, t.pc = targetOf a) ∨ t.pc = s.pc + 2 ∨ t.pc = s.pc + 4) ∧
      (t.sp = s.sp ∧ t.stack = s.stack ∨ (∃ a, i = .call a) ∧ t.sp.toNat = s.sp.toNat + 1 ∧
        ∀ j : Fin 16, t.entry j = if j.val = s.sp.toNat then s.pc + 2 else s.entry j) := by
  obtain ⟨t', ht', ⟨a, rfl, hfull, -⟩ | ⟨-, hfault, hmem, -, hpc, hstack⟩⟩ := exec_cases i s
  · exact absurd (hi.free a rfl) hfull.not_gt
  · cases h.symm.trans ht'
    exact ⟨hfault, hmem, hpc, hstack⟩

/-- An error whose cause holds is the one the step raises: the causes exclude one another by the order of the
checks. -/
theorem step_of_cause {s : State} {e : Error} (hclear : s.fault.kind = .none) (h : e.Cause s) :
    step s = .next (s.raise e) := by
  cases e with
  | outOfBoundsFetch => exact step_outOfBounds hclear h
  | unimplementedOpcode w =>
    obtain ⟨hfetch, hw, e, he⟩ := h
    exact (step_fetched hclear hfetch hw).trans (dispatchWord_error he s)
  | stackOverflow =>
    obtain ⟨hfetch, hfull, w, a, hw, ha⟩ := h
    exact (step_fetched hclear hfetch hw).trans ((dispatchWord_ok ha s).trans (exec_call_full a hfull))
  | stackUnderflow => exact h.elim

/-- A step raises an error of a kind exactly when an error of that kind has its cause. -/
theorem step_raises_iff {s t : State} (hclear : s.fault.kind = .none) (h : step s = .next t) {k : FaultKind}
    (hk : k ≠ .none) : t.fault.kind = k ↔ ∃ e : Error, e.kind = k ∧ e.Cause s := by
  constructor
  · rintro rfl
    rcases step_outcome_of h with ⟨hhalted, -⟩ | ⟨-, e, he, rfl⟩ | ⟨i, hi, ht⟩
    · exact absurd hclear hhalted
    · exact ⟨e, rfl, he⟩
    · exact absurd ((hi.effect ht).1 ▸ hclear) hk
  · rintro ⟨e, rfl, he⟩
    cases h.symm.trans (step_of_cause hclear he)
    rfl

/-! ### The step's outcomes -/

theorem State.onlyLatch_raise (s : State) (e : Error) : s.OnlyLatch (s.raise e) := rfl

/-- Settles O12: the three cases of `step_outcome`. -/
theorem stepHasThreeOutcomes : Obligations.StepHasThreeOutcomes := by
  intro s
  obtain ⟨t, ht, ⟨hhalted, rfl⟩ | ⟨hclear, e, -, rfl⟩ | ⟨i, hi, hexec⟩⟩ := step_outcome s
  · exact ⟨t, ht, .inr (.inr ⟨hhalted, rfl⟩)⟩
  · exact ⟨_, ht, .inr (.inl ⟨hclear, e.kind_ne_none, rfl, s.onlyLatch_raise e⟩)⟩
  · obtain ⟨w, hw, hdecode⟩ := hi.fetched
    exact ⟨t, ht, .inl ⟨hi.clear, (hi.effect hexec).1, w, i, hw, hdecode, hexec⟩⟩

/-- Settles O13: a kind is latched exactly when an error of that kind has its cause (`step_raises_iff`), and each kind
but NONE is that of one error. -/
theorem errorsHaveExactlyTheirCauses : Obligations.ErrorsHaveExactlyTheirCauses := by
  intro s t hclear h
  refine ⟨?bounds, ?opcode, ?overflow, ?underflow⟩
  case bounds =>
    refine (step_raises_iff hclear h (by decide)).trans ⟨?_, fun hpast => ⟨.outOfBoundsFetch, rfl, hpast⟩⟩
    rintro ⟨e, hkind, he⟩
    cases e <;> cases hkind
    exact he
  case opcode =>
    refine (step_raises_iff hclear h (by decide)).trans
      ⟨?_, fun ⟨hfetch, w, e, hw, he⟩ => ⟨.unimplementedOpcode w, rfl, hfetch, hw, e, he⟩⟩
    rintro ⟨e, hkind, he⟩
    cases e <;> cases hkind
    obtain ⟨hfetch, hw, e, he⟩ := he
    exact ⟨hfetch, _, e, hw, he⟩
  case overflow =>
    refine (step_raises_iff hclear h (by decide)).trans ⟨?_, fun hcause => ⟨.stackOverflow, rfl, hcause⟩⟩
    rintro ⟨e, hkind, he⟩
    cases e <;> cases hkind
    exact he
  case underflow =>
    refine (step_raises_iff hclear h (by decide)).not.2 ?_
    rintro ⟨e, hkind, he⟩
    cases e <;> cases hkind
    exact he

/-- Settles O8: the bytes read are the fetched word, which is dispatched to its instruction. -/
theorem stepRunsTheDecodedInstruction : Obligations.StepRunsTheDecodedInstruction := by
  intro s hi lo i hclear hfetch hhi hlo hi
  exact (step_fetched hclear hfetch (State.fetchWord_of_reads hhi hlo)).trans (dispatchWord_ok hi s)

/-- Settles O9: the bounds check comes before the fetch (`step_outOfBounds`). -/
theorem fetchPastMemoryRaisesOutOfBounds : Obligations.FetchPastMemoryRaisesOutOfBounds :=
  fun _ => step_outOfBounds

/-- Settles O10: the bytes read are the fetched word, and dispatch raises with it. -/
theorem illegalWordRaisesUnimplementedOpcode : Obligations.IllegalWordRaisesUnimplementedOpcode := by
  intro s hi lo e hclear hfetch hhi hlo he
  exact (step_fetched hclear hfetch (State.fetchWord_of_reads hhi hlo)).trans (dispatchWord_error he s)

/-- Settles O2: at reset both bytes at address 0 are zero, and 0x0000 is a word of no handler. -/
theorem stepFromResetHaltsOnWordZero : Obligations.StepFromResetHaltsOnWordZero :=
  illegalWordRaisesUnimplementedOpcode State.reset 0 0 (.unimplemented 0) rfl (by decide) rfl rfl rfl

/-- A state that a step leaves as it is stays so over any number of steps. -/
theorem run_of_fixed {s : State} (h : step s = .next s) (n : Nat) : Sys2Proof.core.run n s = .next s := by
  induction n with
  | zero => rfl
  | succ n ih => exact (run_succ h).trans ih

/-- Settles O11: a halted step answers the same state (`step_halted`). -/
theorem haltedBlockNeverChanges : Obligations.HaltedBlockNeverChanges :=
  fun n _ hhalted => run_of_fixed (step_halted hhalted) n

/-- Settles O14: the outputs are read off the latch, which a raise has filled. -/
theorem outputsShowTheLatchedError : Obligations.OutputsShowTheLatchedError := by
  refine fun s w => ⟨rfl, rfl, rfl, rfl, fun hclear => ?_⟩
  rw [State.outputs, s.not_halted_iff.2 hclear, hclear]
  rfl

/-- Settles O35: halting and raising leave the stack alone, and an instruction that completes changes it only as a
CALL does. -/
theorem onlyCallChangesTheStack : Obligations.OnlyCallChangesTheStack := by
  intro s t h
  rcases step_outcome_of h with ⟨-, rfl⟩ | ⟨-, e, -, rfl⟩ | ⟨i, hi, hexec⟩
  · exact .inl ⟨rfl, fun _ => rfl⟩
  · exact .inl ⟨rfl, fun _ => rfl⟩
  · obtain ⟨-, -, -, ⟨hsp, hstack⟩ | ⟨⟨a, rfl⟩, hsp, hentry⟩⟩ := hi.effect hexec
    · exact .inl ⟨hsp, fun j => congrArg (·.get j) hstack⟩
    · obtain ⟨w, hw, hdecode⟩ := hi.fetched
      exact .inr ⟨⟨w, a, hw, hdecode⟩, hi.free a rfl, hsp, hentry⟩

/-! ### What no step writes: memory, `I` and the timers (R21, R22, R42) -/

theorem step_keepsUnread {s t : State} (h : step s = .next t) :
    t.mem = s.mem ∧ t.i = s.i ∧ t.dt = s.dt ∧ t.st = s.st := by
  rcases step_outcome_of h with ⟨-, rfl⟩ | ⟨-, e, -, rfl⟩ | ⟨i, -, hexec⟩
  · exact ⟨rfl, rfl, rfl, rfl⟩
  · exact ⟨rfl, rfl, rfl, rfl⟩
  · exact exec_keepsUnread hexec

theorem run_keepsUnread {n : Nat} {s t : State} (h : Sys2Proof.core.run n s = .next t) :
    t.mem = s.mem ∧ t.i = s.i ∧ t.dt = s.dt ∧ t.st = s.st := by
  induction n generalizing s with
  | zero =>
    cases h
    exact ⟨rfl, rfl, rfl, rfl⟩
  | succ n ih =>
    obtain ⟨u, hu, -⟩ := step_outcome s
    obtain ⟨hmem, hi, hdt, hst⟩ := step_keepsUnread hu
    rw [← hmem, ← hi, ← hdt, ← hst]
    exact ih ((run_succ hu).symm.trans h)

/-- Settles O37, by induction on the number of steps (`run_keepsUnread`). -/
theorem runLeavesMemoryTimersAndIAlone : Obligations.RunLeavesMemoryTimersAndIAlone := by
  intro n s t h
  obtain ⟨hmem, hunused⟩ := run_keepsUnread h
  exact ⟨fun a => congrArg (·.read a) hmem, hunused⟩

/-! ### The invariants of the block -/

theorem targetOf_lt (a : Addr) : (targetOf a).toNat < 4096 := targetOf_toNat a ▸ a.isLt

/-- Past a fetch in bounds the counter does not wrap. -/
theorem pc_add_toNat {pc : Word} (h : pc.toNat ≤ 0xFFE) :
    (pc + 2).toNat = pc.toNat + 2 ∧ (pc + 4).toNat = pc.toNat + 4 := by
  constructor <;> bv_omega

/-- An instruction that completes keeps the invariant: its fetch address is at most 0xFFE, so the next address is at
most 0x1002 and a saved one at most 0x1000. -/
theorem State.Inv.of_completes {s t : State} {i : Instr} (hs : s.Inv) (hi : s.Completes i) (h : exec i s = .next t) :
    t.Inv := by
  obtain ⟨-, hmem, hpc, hstack⟩ := hi.effect h
  obtain ⟨hadd2, hadd4⟩ := pc_add_toNat hi.inBounds
  have hfetch := hi.inBounds
  have hpcBound : t.pc.toNat ≤ 0x1002 := by
    rcases hpc with ⟨a, hpc⟩ | hpc | hpc <;> rw [hpc]
    · have := targetOf_lt a
      omega
    · omega
    · omega
  rcases hstack with ⟨hsp, hstack⟩ | ⟨⟨a, rfl⟩, hsp, hentry⟩
  · refine ⟨hsp ▸ hs.spLegal, hpcBound, fun j hj => ?_, hmem ▸ hs.memWf⟩
    rw [State.entry, hstack]
    exact hs.savedBound j (hsp ▸ hj)
  · have hfree := hi.free a rfl
    refine ⟨by omega, hpcBound, fun j hj => ?_, hmem ▸ hs.memWf⟩
    rw [hentry]
    split_ifs with hnew
    · omega
    · exact hs.savedBound j (by omega)

theorem State.Inv.raise {s : State} (hs : s.Inv) (e : Error) : (s.raise e).Inv :=
  ⟨hs.spLegal, hs.pcBound, hs.savedBound, hs.memWf⟩

theorem State.Inv.step {s t : State} (hs : s.Inv) (h : step s = .next t) : t.Inv := by
  rcases step_outcome_of h with ⟨-, rfl⟩ | ⟨-, e, -, rfl⟩ | ⟨i, hi, hexec⟩
  · exact hs
  · exact hs.raise e
  · exact hs.of_completes hi hexec

/-- A raised error that has its cause still shows it: the raise changes nothing but the latch. -/
theorem State.latchInv_raise {s : State} {e : Error} (h : e.Cause s) : (s.raise e).LatchInv := by
  cases e with
  | outOfBoundsFetch => exact ⟨rfl, rfl, h⟩
  | unimplementedOpcode w =>
    obtain ⟨-, hw, e, he⟩ := h
    exact ⟨rfl, hw, decode_error he ▸ he⟩
  | stackOverflow =>
    obtain ⟨-, hfull, hcall⟩ := h
    exact ⟨rfl, rfl, hfull, hcall⟩
  | stackUnderflow => exact h

theorem State.LatchInv.step {s t : State} (hs : s.LatchInv) (h : step s = .next t) : t.LatchInv := by
  rcases step_outcome_of h with ⟨-, rfl⟩ | ⟨-, e, he, rfl⟩ | ⟨i, hi, hexec⟩
  · exact hs
  · exact State.latchInv_raise he
  · exact State.latchInv_of_clear ((hi.effect hexec).1.trans (State.clear_of_latchInv hs hi.clear))

/-- Settles O45: each outcome of a step keeps the bounds; only an instruction that completes moves any of them. -/
theorem stepKeepsStateInvariant : Obligations.StepKeepsStateInvariant := fun _ _ => State.Inv.step

/-- Settles O46: a raised error still has its cause in the next state, and every other outcome keeps the latch. -/
theorem stepKeepsLatchInvariant : Obligations.StepKeepsLatchInvariant := fun _ _ => State.LatchInv.step

end Sys2Proof.Machine
end

section
/-!
The block among its agents (R118 to R121): what an accepted action leaves, the invariant of the system, and the boot
sequence.
-/

namespace Sys2Proof

theorem Launch.wellFormed_iff (l : Launch) : l.wellFormed = true ↔ l.offset.toNat + l.rom.length ≤ 4096 :=
  decide_eq_true_iff

end Sys2Proof

namespace Sys2Proof.Machine

/-! ### What the host's actions accept -/

/-- The loader is accepted right after reset only, with a program that fits. -/
theorem System.load_next {y z : System} {l : Launch} (h : y.act (.load l) = .next z) :
    y.phase = .afterReset ∧ z = ⟨y.block.loadProgram l, .afterLoad l.offset⟩ := by
  rw [System.act, System.load] at h
  split at h
  case h_1 hphase =>
    split at h <;> cases h
    exact ⟨hphase, rfl⟩
  all_goals cases h

/-- Setting `pc` is accepted right after the load only. -/
theorem System.setPc_next {y z : System} (h : y.act .setPc = .next z) :
    ∃ offset, y.phase = .afterLoad offset ∧ z = ⟨y.block.jump (targetOf offset), .ready⟩ := by
  rw [System.act, System.setPc] at h
  split at h <;> cases h
  exact ⟨_, ‹_›, rfl⟩

/-- An accepted step request is a step of the block, and closes the boot port. -/
theorem System.step_next {y z : System} (h : y.act .step = .next z) :
    ∃ t, Machine.step y.block = .next t ∧ z = ⟨t, .running⟩ := by
  rw [System.act, System.stepBlock] at h
  split at h <;> cases h
  exact ⟨_, ‹_›, rfl⟩

/-! ### The invariants at reset -/

/-- Settles O1: reset fills the registers and the stack with zeros and lists no byte of memory. -/
theorem resetZeroesEveryElement : Obligations.ResetZeroesEveryElement :=
  ⟨State.reg_reset, rfl, rfl, State.entry_reset, rfl, rfl, rfl, fun _ ha => Memory.read_inside _ ha, rfl⟩

theorem State.inv_reset : State.reset.Inv where
  spLegal := by decide
  pcBound := by decide
  savedBound _ hj := absurd hj (Nat.not_lt_zero _)
  memWf := Memory.reset_wf

theorem System.inv_initial : System.initial.Inv where
  block := State.inv_reset
  latch := State.latchInv_of_clear rfl
  bootClear _ := rfl

/-- Settles O44: nothing is occupied, listed or latched after reset. -/
theorem resetMeetsTheInvariants : Obligations.ResetMeetsTheInvariants :=
  ⟨State.inv_reset, State.latchInv_of_clear rfl, System.inv_initial⟩

/-! ### The invariant of the system -/

theorem State.Inv.loadProgram {s : State} (hs : s.Inv) (l : Launch) : (s.loadProgram l).Inv :=
  ⟨hs.spLegal, hs.pcBound, hs.savedBound, State.loadProgram_wf hs.memWf l⟩

/-- A 12-bit target is below the bound on `pc`. -/
theorem State.Inv.jump {s : State} (hs : s.Inv) (a : Addr) : (s.jump (targetOf a)).Inv :=
  ⟨hs.spLegal, (targetOf_lt a).le.trans (by decide), hs.savedBound, hs.memWf⟩

/-- While the host boots, the latch is clear, so a block with the same latch meets the invariant at any phase. -/
theorem System.Inv.of_boot {y : System} (hy : y.Inv) (hphase : y.phase ≠ .running) {t : State} (ht : t.Inv)
    (hfault : t.fault = y.block.fault) (p : Phase) : System.Inv ⟨t, p⟩ :=
  have hclear : t.fault = FaultLatch.clear := hfault.trans (hy.bootClear hphase)
  ⟨ht, State.latchInv_of_clear hclear, fun _ => hclear⟩

theorem System.Inv.tickDelay {y : System} (hy : y.Inv) : System.Inv { y with block := y.block.tickDelay } :=
  ⟨⟨hy.block.spLegal, hy.block.pcBound, hy.block.savedBound, hy.block.memWf⟩, hy.latch, hy.bootClear⟩

theorem System.Inv.tickSound {y : System} (hy : y.Inv) : System.Inv { y with block := y.block.tickSound } :=
  ⟨⟨hy.block.spLegal, hy.block.pcBound, hy.block.savedBound, hy.block.memWf⟩, hy.latch, hy.bootClear⟩

theorem System.Inv.act {y z : System} {a : AgentAction} (hy : y.Inv) (h : y.act a = .next z) : z.Inv := by
  cases a with
  | reset =>
    cases h
    exact System.inv_initial
  | load l =>
    obtain ⟨hphase, rfl⟩ := System.load_next h
    exact hy.of_boot (by simp [hphase]) (hy.block.loadProgram l) rfl _
  | setPc =>
    obtain ⟨offset, hphase, rfl⟩ := System.setPc_next h
    exact hy.of_boot (by simp [hphase]) (hy.block.jump offset) rfl _
  | step =>
    obtain ⟨t, ht, rfl⟩ := System.step_next h
    exact ⟨hy.block.step ht, hy.latch.step ht, fun hphase => absurd rfl hphase⟩
  | tickDelay =>
    cases h
    exact hy.tickDelay
  | tickSound =>
    cases h
    exact hy.tickSound
  | cancel | readFault | observe =>
    cases h
    exact hy

/-- Settles O47, action by action (`System.Inv.act`): the step keeps the invariants of the block, the boot actions find
the latch clear, and the ticker's timers stand in none of the invariants. -/
theorem agentsKeepSystemInvariant : Obligations.AgentsKeepSystemInvariant := fun _ _ _ => System.Inv.act

/-! ### What the actions leave alone -/

/-- Settles O48: a halted step changes nothing, and no other action but reset writes the latch. -/
theorem onlyResetLeavesTheHaltedState : Obligations.OnlyResetLeavesTheHaltedState := by
  refine ⟨fun y z a hhalted hreset h => ?_, fun _ => rfl⟩
  cases a with
  | reset => exact absurd rfl hreset
  | load l =>
    obtain ⟨-, rfl⟩ := System.load_next h
    rfl
  | setPc =>
    obtain ⟨_, -, rfl⟩ := System.setPc_next h
    rfl
  | step =>
    obtain ⟨t, ht, rfl⟩ := System.step_next h
    cases (step_halted hhalted).symm.trans ht
    rfl
  | tickDelay | tickSound | cancel | readFault | observe =>
    cases h
    rfl

theorem System.act_load_running {y : System} (hy : y.phase = .running) (l : Launch) :
    y.act (.load l) = .refused .hostActionNotAllowed := by
  rw [System.act, System.load, hy]

theorem System.act_setPc_running {y : System} (hy : y.phase = .running) :
    y.act .setPc = .refused .hostActionNotAllowed := by
  rw [System.act, System.setPc, hy]

/-- During a run an action that is accepted is a reset, a step, or writes nothing but a timer. -/
theorem System.act_running {y z : System} {a : AgentAction} (hy : y.phase = .running) (h : y.act a = .next z) :
    a = .reset ∨ (a = .step ∧ ∃ t, Machine.step y.block = .next t ∧ z = ⟨t, .running⟩) ∨
      ∃ dt st, z = { y with block := { y.block with dt := dt, st := st } } := by
  cases a with
  | reset => exact .inl rfl
  | load l => cases (System.act_load_running hy l).symm.trans h
  | setPc => cases (System.act_setPc_running hy).symm.trans h
  | step => exact .inr (.inl ⟨rfl, System.step_next h⟩)
  | tickDelay | tickSound | cancel | readFault | observe =>
    cases h
    exact .inr (.inr ⟨_, _, rfl⟩)

/-- Settles O49: a step leaves memory alone (`step_keepsUnread`), and the other actions of a run write a timer at most
(`System.act_running`). -/
theorem bootPortIsClosedDuringARun : Obligations.BootPortIsClosedDuringARun := by
  refine fun y hy => ⟨System.act_load_running hy, System.act_setPc_running hy, fun a z hreset h => ?_,
    fun a z hreset hstep h => ?_⟩
  · rcases System.act_running hy h with rfl | ⟨-, t, ht, rfl⟩ | ⟨dt, st, rfl⟩
    · exact absurd rfl hreset
    · obtain ⟨hmem, -⟩ := step_keepsUnread ht
      exact fun k => congrArg (·.read k) hmem
    · exact fun _ => rfl
  · rcases System.act_running hy h with rfl | ⟨rfl, -⟩ | ⟨dt, st, rfl⟩
    · exact absurd rfl hreset
    · exact absurd rfl hstep
    · exact ⟨fun _ => rfl, ⟨rfl, fun _ => rfl⟩, rfl, rfl, rfl⟩

/-- Settles O51: a tick is the ticker's write of its one timer. -/
theorem tickerChangesOnlyItsTimer : Obligations.TickerChangesOnlyItsTimer := fun _ => ⟨rfl, rfl⟩

/-! ### The boot sequence (R119) -/

theorem System.acts_cons {y z : System} {a : AgentAction} (h : y.act a = .next z) (as : List AgentAction) :
    y.acts (a :: as) = z.acts as := by
  rw [System.acts, h]

theorem System.acts_cons_refused {y : System} {a : AgentAction} {r : Refusal} (h : y.act a = .refused r)
    (as : List AgentAction) : y.acts (a :: as) = .refused r := by
  rw [System.acts, h]

/-- The host after a boot with a program that fits. -/
theorem System.acts_bootSequence {l : Launch} (h : l.offset.toNat + l.rom.length ≤ 4096) (y : System) :
    y.acts (bootSequence l) = .next ⟨(State.reset.loadProgram l).jump (targetOf l.offset), .ready⟩ := by
  have hload : System.initial.act (.load l) = .next ⟨State.reset.loadProgram l, .afterLoad l.offset⟩ :=
    if_pos (l.wellFormed_iff.2 h)
  rw [bootSequence, System.acts_cons rfl, System.acts_cons hload, System.acts_cons rfl, System.acts]

theorem System.acts_bootSequence_refused {l : Launch} (h : 4096 < l.offset.toNat + l.rom.length) (y : System) :
    y.acts (bootSequence l) = .refused .invalidLaunch := by
  have hload : System.initial.act (.load l) = .refused .invalidLaunch :=
    if_neg (mt l.wellFormed_iff.1 h.not_ge)
  rw [bootSequence, System.acts_cons rfl, System.acts_cons_refused hload]

/-- Settles O50: the boot ends in reset's state with the program copied and `pc` at the load offset
(`System.acts_bootSequence`), and the copy leaves every byte but the program's as reset has it
(`Memory.read_writeBytes`). -/
theorem bootPlacesTheProgram : Obligations.BootPlacesTheProgram := by
  refine fun y l => ⟨fun hfits => ?_, fun htoolong => System.acts_bootSequence_refused htoolong y⟩
  obtain ⟨hinside, houtside⟩ := Memory.read_writeBytes Memory.reset_wf hfits
  exact ⟨_, System.acts_bootSequence hfits y, rfl, rfl, hinside,
    fun a ha hfar => (houtside a hfar).trans (Memory.read_inside _ ha), State.reg_reset, rfl, State.entry_reset,
    ⟨rfl, rfl, rfl⟩, rfl⟩

end Sys2Proof.Machine
end

section
/-!
What each instruction does to `pc` and the registers: the jump, the skips, the flag writers (R81 to R99), and the rules
over all instructions.
-/

namespace Sys2Proof.Machine

/-! ### Jump, skip and the full stack -/

/-- A jump from where the block stands to where it stands is no change (R81). -/
theorem State.advance_jump_self (s : State) : s.advance.jump s.pc = s := rfl

theorem State.onlyPc_advance_jump (s : State) (w : Word) : s.OnlyPc (s.advance.jump w) :=
  ⟨fun _ => rfl, ⟨rfl, fun _ => rfl⟩, ⟨rfl, rfl, rfl⟩, fun _ => rfl, rfl⟩

theorem State.onlyPc_advance_skipIf (s : State) (c : Bool) : s.OnlyPc (s.advance.skipIf c) := by
  cases c <;> exact s.onlyPc_advance_jump _

/-- Settles O15: JP is the jump after the advance (`exec_jp`). -/
theorem jpReplacesPc : Obligations.JpReplacesPc := by
  refine fun a s => ⟨_, exec_jp a s, rfl, s.onlyPc_advance_jump _, fun hself => ?_⟩
  rw [targetOf, hself, State.advance_jump_self]

/-- Settles O17: the push finds no free entry (`exec_call_full`). -/
theorem callOnFullStackRaisesStackOverflow : Obligations.CallOnFullStackRaisesStackOverflow :=
  fun a _ hfull => exec_call_full a hfull

/-- The counter after a skip, with the comparator's condition as an equation (R75). -/
theorem State.advance_skipIf_equalTo_pc (s : State) (a c : Byte) :
    (s.advance.skipIf (equalTo a c)).pc = if a = c then s.pc + 4 else s.pc + 2 := by
  simp only [advance_skipIf_pc, equalTo_iff]

theorem State.advance_skipIf_not_equalTo_pc (s : State) (a c : Byte) :
    (s.advance.skipIf (!equalTo a c)).pc = if a = c then s.pc + 2 else s.pc + 4 := by
  rw [advance_skipIf_pc]
  by_cases h : a = c <;> simp [equalTo, h]

/-- Settles O18: SE is a skip on equality (`exec_se`). -/
theorem seSkipsOnEqualImmediate : Obligations.SeSkipsOnEqualImmediate := fun x kk s =>
  ⟨_, exec_se x kk s, s.advance_skipIf_equalTo_pc .., s.onlyPc_advance_skipIf _⟩

/-- Settles O19: SNE is a skip on inequality (`exec_sne`). -/
theorem sneSkipsOnUnequalImmediate : Obligations.SneSkipsOnUnequalImmediate := fun x kk s =>
  ⟨_, exec_sne x kk s, (s.advance_skipIf_not_equalTo_pc ..).trans (ite_not ..).symm, s.onlyPc_advance_skipIf _⟩

/-- Settles O20: SER is a skip on equality of the latched operands (`exec_ser`). -/
theorem serSkipsOnEqualRegisters : Obligations.SerSkipsOnEqualRegisters := fun x y s =>
  ⟨_, exec_ser x y s, s.advance_skipIf_equalTo_pc .., s.onlyPc_advance_skipIf _⟩

/-! ### The flag writers -/

/-- The byte a flag is written as (R25), with the flag's condition as a proposition. -/
theorem flagByte_of_iff {c : Bool} {p : Prop} [Decidable p] (h : c = true ↔ p) :
    (if c then 0x01 else 0x00 : Byte) = if p then 0x01 else 0x00 := by
  simp only [h]

theorem State.reg_writeBack_same (s : State) (x : Reg) (c : Bool) (b : Byte) : (s.writeBack x c b).reg x = b := by
  rw [State.reg_writeBack, if_pos rfl]

/-- What the two writes of a flag writer leave after the advance: the flag stands in VF unless the result overwrites it,
and nothing but those two registers and `pc` has changed. -/
theorem State.advance_writeBack_effect (s : State) (x : Reg) (c : Bool) (b : Byte) :
    (x ≠ 15 → (s.advance.writeBack x c b).reg 15 = if c then 0x01 else 0x00) ∧
      (∀ r, r ≠ x → r ≠ 15 → (s.advance.writeBack x c b).reg r = s.reg r) ∧
      (s.advance.writeBack x c b).pc = s.pc + 2 ∧ s.OnlyRegsAndPc (s.advance.writeBack x c b) := by
  refine ⟨fun hx => ?_, fun r hr hflag => ?_, rfl, ⟨rfl, fun _ => rfl⟩, ⟨rfl, rfl, rfl⟩, fun _ => rfl, rfl⟩
  · rw [State.reg_writeBack, if_neg hx.symm, if_pos rfl]
  · rw [State.reg_writeBack, if_neg hr, if_neg hflag, State.reg_advance]

/-- A difference of bytes is the exact one modulo 256. -/
theorem toNat_sub_byte (a b : Byte) : ((a - b).toNat : Int) = (a.toNat - b.toNat : Int) % 256 := by
  rw [BitVec.toNat_sub]
  omega

theorem toNat_shiftRight_one (a : Byte) : (a >>> 1).toNat = a.toNat / 2 := by
  rw [BitVec.toNat_ushiftRight, Nat.shiftRight_one]

theorem toNat_shiftLeft_one (a : Byte) : (a <<< 1).toNat = 2 * a.toNat % 256 := by
  rw [BitVec.toNat_shiftLeft, Nat.shiftLeft_eq, Nat.mul_comm]

theorem flag_shiftedOutRight (a : Byte) : (if shiftedOutRight a then 0x01 else 0x00 : Byte) = a &&& 1 := by
  revert a
  decide

theorem flag_shiftedOutLeft (a : Byte) : (if shiftedOutLeft a then 0x01 else 0x00 : Byte) = (a >>> 7) &&& 1 := by
  revert a
  decide

/-- Settles O27: ADDR writes the carry and then the 8-bit sum (`exec_addr`). -/
theorem addrSumsWithCarry : Obligations.AddrSumsWithCarry := by
  intro x y s
  obtain ⟨hflag, hframe⟩ := s.advance_writeBack_effect x (carryFlag (s.reg x) (s.reg y)) (s.reg x + s.reg y)
  refine ⟨_, exec_addr x y s, ?sum, fun hx => (hflag hx).trans (flagByte_of_iff (carryFlag_iff ..)), hframe⟩
  rw [State.reg_writeBack_same, BitVec.toNat_add]

/-- Settles O28: SUB writes the not-borrow and then the 8-bit difference (`exec_sub`). -/
theorem subSubtractsWithStrictNotBorrow : Obligations.SubSubtractsWithStrictNotBorrow := by
  intro x y s
  obtain ⟨hflag, hframe⟩ := s.advance_writeBack_effect x (notBorrowFlag (s.reg x) (s.reg y)) (s.reg x - s.reg y)
  refine ⟨_, exec_sub x y s, ?difference, fun hx => (hflag hx).trans (flagByte_of_iff (notBorrowFlag_iff ..)), hframe⟩
  rw [State.reg_writeBack_same, toNat_sub_byte]

/-- Settles O29: SHR writes the old bit 0 and then the shifted byte (`exec_shr`). -/
theorem shrHalvesAndFlagsBitZero : Obligations.ShrHalvesAndFlagsBitZero := by
  intro x s
  obtain ⟨hflag, hframe⟩ := s.advance_writeBack_effect x (shiftedOutRight (s.reg x)) (s.reg x >>> 1)
  refine ⟨_, exec_shr x s, ?half, fun hx => (hflag hx).trans (flag_shiftedOutRight _), hframe⟩
  rw [State.reg_writeBack_same, toNat_shiftRight_one]

/-- Settles O30: SUBN writes the not-borrow and then the 8-bit difference, the operands exchanged (`exec_subn`). -/
theorem subnSubtractsReversedWithStrictNotBorrow : Obligations.SubnSubtractsReversedWithStrictNotBorrow := by
  intro x y s
  obtain ⟨hflag, hframe⟩ := s.advance_writeBack_effect x (notBorrowFlag (s.reg y) (s.reg x)) (s.reg y - s.reg x)
  refine ⟨_, exec_subn x y s, ?difference, fun hx => (hflag hx).trans (flagByte_of_iff (notBorrowFlag_iff ..)), hframe⟩
  rw [State.reg_writeBack_same, toNat_sub_byte]

/-- Settles O31: SHL writes the old bit 7 and then the shifted byte (`exec_shl`). -/
theorem shlDoublesAndFlagsBitSeven : Obligations.ShlDoublesAndFlagsBitSeven := by
  intro x s
  obtain ⟨hflag, hframe⟩ := s.advance_writeBack_effect x (shiftedOutLeft (s.reg x)) (s.reg x <<< 1)
  refine ⟨_, exec_shl x s, ?double, fun hx => (hflag hx).trans (flag_shiftedOutLeft _), hframe⟩
  rw [State.reg_writeBack_same, toNat_shiftLeft_one]

theorem shiftRight_shiftLeft_one (a : Byte) : (a >>> 1) <<< 1 = a &&& 0xFE := by
  revert a
  decide

theorem shiftLeft_shiftRight_one (a : Byte) : (a <<< 1) >>> 1 = a &&& 0x7F := by
  revert a
  decide

/-- Settles O40: the result port writes last, so the second shift reads the first one's result even in VF. -/
theorem shiftsThereAndBackClearOneBit : Obligations.ShiftsThereAndBackClearOneBit := by
  refine fun x s => ⟨⟨_, _, exec_shr x s, exec_shl x _, ?low⟩, _, _, exec_shl x s, exec_shr x _, ?high⟩
  case low => rw [State.reg_writeBack_same, State.reg_writeBack_same, shiftRight_shiftLeft_one]
  case high => rw [State.reg_writeBack_same, State.reg_writeBack_same, shiftLeft_shiftRight_one]

/-! ### Rules over all instructions -/

/-- Settles O32: each instruction is one of the four sources of the next address. -/
theorem nextPcIsTheMultiplexersChoice : Obligations.NextPcIsTheMultiplexersChoice := by
  intro i s
  cases i with
  | jp a => exact ⟨_, exec_jp a s, rfl⟩
  | call a =>
    rcases Nat.lt_or_ge s.sp.toNat 16 with hfree | hfull
    · exact ⟨_, exec_call a hfree, (if_pos hfree).symm⟩
    · exact ⟨_, exec_call_full a hfull, (if_neg hfull.not_gt).symm⟩
  | se x kk => exact ⟨_, exec_se x kk s, s.advance_skipIf_equalTo_pc ..⟩
  | sne x kk => exact ⟨_, exec_sne x kk s, s.advance_skipIf_not_equalTo_pc ..⟩
  | ser x y => exact ⟨_, exec_ser x y s, s.advance_skipIf_equalTo_pc ..⟩
  | _ => exact ⟨_, rfl, rfl⟩

/-- Everything an instruction can do to the registers: nothing, one result, or the flag and a result. -/
theorem exec_regs {i : Instr} {s t : State} (h : exec i s = .next t) :
    i.dest = none ∧ i.writesFlag = false ∧ s.SameRegs t ∨
    (∃ x b, i.dest = some x ∧ i.writesFlag = false ∧ t = s.advance.setReg x b) ∨
    ∃ x c b, i.dest = some x ∧ i.writesFlag = true ∧ t = s.advance.writeBack x c b := by
  cases i with
  | jp a =>
    cases h
    exact .inl ⟨rfl, rfl, fun _ => rfl⟩
  | call a =>
    refine .inl ⟨rfl, rfl, ?_⟩
    rcases Nat.lt_or_ge s.sp.toNat 16 with hfree | hfull
    · cases (exec_call a hfree).symm.trans h
      exact fun _ => rfl
    · cases (exec_call_full a hfull).symm.trans h
      exact fun _ => rfl
  | se | sne | ser =>
    cases h
    exact .inl ⟨rfl, rfl, (s.onlyPc_advance_skipIf _).1⟩
  | ld | add | ldr | or | and | xor =>
    cases h
    exact .inr (.inl ⟨_, _, rfl, rfl, rfl⟩)
  | addr | sub | shr | subn | shl =>
    cases h
    exact .inr (.inr ⟨_, _, _, rfl, rfl, rfl⟩)

/-- Settles O33, along what an instruction can do to the registers (`exec_regs`). -/
theorem onlyDestinationAndFlagChange : Obligations.OnlyDestinationAndFlagChange := by
  intro i s t r h hdest hflag
  rcases exec_regs h with ⟨-, -, hsame⟩ | ⟨x, b, hx, -, rfl⟩ | ⟨x, c, b, hx, hwrites, rfl⟩
  · exact hsame r
  · have hr : r ≠ x := fun hr => hdest (hr ▸ hx)
    exact s.advance.reg_setReg_of_ne hr b
  · have hr : r ≠ x := fun hr => hdest (hr ▸ hx)
    obtain ⟨-, hothers, -⟩ := s.advance_writeBack_effect x c b
    exact hothers r hr (hflag hwrites)

/-- Settles O34, along what an instruction can do to the registers (`exec_regs`). -/
theorem flagIsZeroOrOneAndNobodyElseWritesIt : Obligations.FlagIsZeroOrOneAndNobodyElseWritesIt := by
  intro i s t h hdest
  rcases exec_regs h with ⟨-, hwrites, hsame⟩ | ⟨x, b, hx, hwrites, rfl⟩ | ⟨x, c, b, hx, hwrites, rfl⟩
  · exact ⟨fun hflag => by simp [hwrites] at hflag, fun _ => hsame 15⟩
  · have hr : 15 ≠ x := fun hr => hdest (hr ▸ hx)
    exact ⟨fun hflag => by simp [hwrites] at hflag, fun _ => s.advance.reg_setReg_of_ne hr b⟩
  · have hr : x ≠ 15 := fun hr => hdest (hr ▸ hx)
    obtain ⟨hvf, -⟩ := s.advance_writeBack_effect x c b
    refine ⟨fun _ => ?_, fun hflag => by simp [hwrites] at hflag⟩
    rw [hvf hr]
    cases c
    · exact .inl rfl
    · exact .inr rfl

/-! ### A jump to itself -/

/-- A state with no error that a step leaves as it is runs safely for ever. -/
theorem safeFor_of_fixed {s : State} (hclear : s.fault.kind = .none) (h : step s = .next s) (n : Nat) : SafeFor n s :=
  fun k _ => ⟨s, run_of_fixed h k, hclear⟩

/-- Settles O41: such a step answers the state itself (`State.advance_jump_self`). -/
theorem jumpToSelfIsSafeForever : Obligations.JumpToSelfIsSafeForever := by
  intro s w a n hclear hfetch hw ha hself
  have hfixed : step s = .next s := by
    rw [step_fetched hclear hfetch hw, dispatchWord_ok ha, exec_jp, targetOf, hself, State.advance_jump_self]
  exact ⟨safeFor_of_fixed hclear hfixed n, run_of_fixed hfixed n⟩

end Sys2Proof.Machine
end

section
/-!
The call-stack unit's pop after its push (R84), and the canonical form of memory (R34): a memory's list is determined by
what it reads as.
-/

namespace Sys2Proof.Machine

/-- Settles O42: the pop reads the entry the push wrote and writes nothing but `sp`. -/
theorem popAfterPushGivesThePushedValue : Obligations.PopAfterPushGivesThePushedValue := by
  refine ⟨fun s w h hfree => ?_, fun s h hempty => ?_⟩
  · have hsp := State.push_sp_toNat hfree w
    obtain ⟨hzero, -⟩ | ⟨j, hj, hpop⟩ := (s.push w).pop_cases h
    · omega
    · have htop : (s.push w).entry j = w := by
        rw [State.entry_push, if_pos (by omega)]
      rw [htop] at hpop
      exact ⟨_, hpop, BitVec.add_sub_cancel .., s.entry_push w, fun _ => rfl, ⟨rfl, rfl, rfl⟩, fun _ => rfl, rfl, rfl⟩
  · obtain ⟨-, hpop⟩ | ⟨j, hj, -⟩ := s.pop_cases h
    · exact hpop
    · omega

theorem Memory.lookup_head (k : Nat) (b : Byte) (m : Memory) : Memory.lookup ((k, b) :: m) k = b := if_pos rfl

theorem Memory.wf_cons {k : Nat} {b : Byte} {m : Memory} (h : Memory.wf ((k, b) :: m)) :
    (k < Config.memSize ∧ b ≠ Memory.blank) ∧ (∀ c ∈ m, k < c.1) ∧ m.wf := by
  obtain ⟨hrising, hcells⟩ := h
  obtain ⟨hhead, htail⟩ := List.pairwise_cons.1 hrising
  exact ⟨hcells _ List.mem_cons_self, hhead, htail, fun c hc => hcells c (List.mem_cons_of_mem _ hc)⟩

/-- A memory that lists an address reads otherwise there than one that lists only addresses above. -/
theorem Memory.lookup_ne_of_above {k : Nat} {b : Byte} {m m' : Memory} (hb : b ≠ Memory.blank)
    (h : ∀ c ∈ m', k < c.1) : Memory.lookup ((k, b) :: m) k ≠ Memory.lookup m' k := by
  rwa [Memory.lookup_head, Memory.lookup_below h]

/-- Memories that list the same lowest address and read alike at an address have tails that do: at the lowest address
both tails are blank. -/
theorem Memory.lookup_tails_alike {k : Nat} {b b' : Byte} {m m' : Memory} (hm : ∀ c ∈ m, k < c.1)
    (hm' : ∀ c ∈ m', k < c.1) {a : Nat} (h : Memory.lookup ((k, b) :: m) a = Memory.lookup ((k, b') :: m') a) :
    Memory.lookup m a = Memory.lookup m' a := by
  by_cases ha : k = a
  · subst ha
    rw [Memory.lookup_below hm, Memory.lookup_below hm']
  · simpa only [Memory.lookup, if_neg ha] using h

/-- Two canonical memories whose bytes are alike inside memory are the same list: below the lowest listed address every
byte is blank and no listed byte is, so their lowest addresses agree. -/
theorem Memory.eq_of_lookup {m m' : Memory} (hm : m.wf) (hm' : m'.wf)
    (h : ∀ a < Config.memSize, m.lookup a = m'.lookup a) : m = m' := by
  induction m generalizing m' with
  | nil =>
    cases m' with
    | nil => rfl
    | cons c m' =>
      obtain ⟨⟨hk, hb⟩, -⟩ := Memory.wf_cons hm'
      exact absurd (h _ hk).symm (Memory.lookup_ne_of_above hb nofun)
  | cons c m ih =>
    obtain ⟨⟨hk, hb⟩, habove, htail⟩ := Memory.wf_cons hm
    cases m' with
    | nil => exact absurd (h _ hk) (Memory.lookup_ne_of_above hb nofun)
    | cons c' m' =>
      obtain ⟨⟨hk', hb'⟩, habove', htail'⟩ := Memory.wf_cons hm'
      rcases lt_trichotomy c.1 c'.1 with hlt | heq | hgt
      · have hall : ∀ d ∈ c' :: m', c.1 < d.1 :=
          List.forall_mem_cons.2 ⟨hlt, fun d hd => hlt.trans (habove' d hd)⟩
        exact absurd (h _ hk) (Memory.lookup_ne_of_above hb hall)
      · obtain ⟨k, b⟩ := c
        obtain ⟨k', b'⟩ := c'
        obtain rfl : k = k' := heq
        have hbyte : b = b' := by simpa only [Memory.lookup_head] using h k hk
        rw [hbyte, ih htail htail' fun a ha => Memory.lookup_tails_alike habove habove' (h a ha)]
      · have hall : ∀ d ∈ c :: m, c'.1 < d.1 :=
          List.forall_mem_cons.2 ⟨hgt, fun d hd => hgt.trans (habove d hd)⟩
        exact absurd (h _ hk').symm (Memory.lookup_ne_of_above hb' hall)

/-- Settles O43: reads that are alike are alike bytes inside memory (`Memory.eq_of_lookup`). -/
theorem canonicalMemoriesThatReadAlikeAreEqual : Obligations.CanonicalMemoriesThatReadAlikeAreEqual := by
  refine fun m m' hm hm' h => Memory.eq_of_lookup hm hm' fun a ha => ?_
  have hread := h a
  rw [Memory.read_inside m ha, Memory.read_inside m' ha] at hread
  exact Except.ok.inj hread

end Sys2Proof.Machine
end

section
/-!
The datapath against the instruction rules (R69 to R76): what the ALU answers, what a step commits for each row of the
control table, and the row each word selects.
-/

namespace Sys2Proof.Machine

/-! ### The ALU (R74) -/

theorem narrow_natCast (n : Nat) : narrow (n : Int) = BitVec.ofNat 8 n := BitVec.ofInt_natCast 8 n

/-- The exact sum modulo 256 is the 8-bit sum. -/
theorem narrow_add (a b : Byte) : narrow (a.toNat + b.toNat : Int) = a + b := by
  rw [← Int.natCast_add, narrow_natCast, BitVec.ofNat_add, BitVec.ofNat_toNat, BitVec.ofNat_toNat,
    BitVec.setWidth_eq, BitVec.setWidth_eq]

/-- The exact difference modulo 256 is the 8-bit difference. -/
theorem narrow_sub (a b : Byte) : narrow (a.toNat - b.toNat : Int) = a - b := by
  have h := toNat_sub_byte a b
  apply BitVec.eq_of_toNat_eq
  rw [narrow, BitVec.toNat_ofInt]
  omega

theorem narrow_half (a : Byte) : narrow (a.toNat / 2 : Int) = a >>> 1 := by
  apply BitVec.eq_of_toNat_eq
  rw [toNat_shiftRight_one, narrow, BitVec.toNat_ofInt]
  omega

theorem narrow_double (a : Byte) : narrow (a.toNat * 2 : Int) = a <<< 1 := by
  apply BitVec.eq_of_toNat_eq
  rw [toNat_shiftLeft_one, narrow, BitVec.toNat_ofInt]
  omega

theorem aluFlg_add (a b : Byte) : aluFlg .add a b = some (BitVec.ofBool (carryFlag a b)) := rfl

theorem aluFlg_sub (a b : Byte) : aluFlg .sub a b = some (BitVec.ofBool (notBorrowFlag a b)) := rfl

theorem aluFlg_subn (a b : Byte) : aluFlg .subn a b = some (BitVec.ofBool (notBorrowFlag b a)) := rfl

theorem aluFlg_shr (a b : Byte) : aluFlg .shr a b = some (BitVec.ofBool (shiftedOutRight a)) := by
  have hbit : a.extractLsb' 0 1 = BitVec.ofBool (shiftedOutRight a) := by
    revert a
    decide
  exact congrArg some hbit

theorem aluFlg_shl (a b : Byte) : aluFlg .shl a b = some (BitVec.ofBool (shiftedOutLeft a)) := by
  have hbit : a.extractLsb' 7 1 = BitVec.ofBool (shiftedOutLeft a) := by
    revert a
    decide
  exact congrArg some hbit

theorem zeroExtend_ofBool (c : Bool) : (BitVec.ofBool c).zeroExtend 8 = if c then 0x01 else 0x00 := by
  cases c <;> rfl

/-! ### What the rows of the control table commit (R76) -/

theorem commit_jump (w : Word) (s : State) :
    datapathCommit ⟨none, false, false, .target, false, none⟩ w s = s.advance.jump (targetOf (fieldADDR w)) := rfl

theorem commit_call (w : Word) {s : State} (h : s.sp.toNat < 16) :
    datapathCommit ⟨none, false, false, .target, true, none⟩ w s =
      (s.advance.push (s.pc + 2)).jump (targetOf (fieldADDR w)) :=
  if_neg (Bool.eq_false_iff.1 (s.not_stackFull_iff.2 h))

theorem commit_call_full (w : Word) {s : State} (h : 16 ≤ s.sp.toNat) :
    datapathCommit ⟨none, false, false, .target, true, none⟩ w s = s.raise .stackOverflow :=
  if_pos (s.stackFull_iff.2 h)

theorem State.advance_setPc_skip (s : State) (c : Bool) :
    ({ s with pc := if c then s.pc + 4 else s.pc + 2 } : State) = s.advance.skipIf c := by
  cases c
  · rfl
  · simp only [State.skipIf, State.advance, BitVec.add_assoc]
    rfl

theorem nextPc_skipIfEq (cmp : CompareWith) (eq : Bool) (f : Word) (target : Addr) :
    nextPc ⟨none, false, false, .skipIfEq, false, some cmp⟩ eq f target = if eq then f + 4 else f + 2 := by
  cases eq <;> rfl

theorem nextPc_skipUnlessEq (cmp : CompareWith) (eq : Bool) (f : Word) (target : Addr) :
    nextPc ⟨none, false, false, .skipUnlessEq, false, some cmp⟩ eq f target = if !eq then f + 4 else f + 2 := by
  cases eq <;> rfl

theorem commit_se (w : Word) (s : State) :
    datapathCommit ⟨none, false, false, .skipIfEq, false, some .k⟩ w s =
      s.advance.skipIf (equalTo (s.reg (regOf (fieldX w))) (fieldKK w)) := by
  rw [← State.advance_setPc_skip, ← nextPc_skipIfEq .k _ _ (fieldADDR w)]
  rfl

theorem commit_sne (w : Word) (s : State) :
    datapathCommit ⟨none, false, false, .skipUnlessEq, false, some .k⟩ w s =
      s.advance.skipIf (!equalTo (s.reg (regOf (fieldX w))) (fieldKK w)) := by
  rw [← State.advance_setPc_skip, ← nextPc_skipUnlessEq .k _ _ (fieldADDR w)]
  rfl

theorem commit_ser (w : Word) (s : State) :
    datapathCommit ⟨none, false, false, .skipIfEq, false, some .b⟩ w s =
      s.advance.skipIf (equalTo (s.reg (regOf (fieldX w))) (s.reg (regOf (fieldY w)))) := by
  rw [← State.advance_setPc_skip, ← nextPc_skipIfEq .b _ _ (fieldADDR w)]
  rfl

theorem commit_resultOnly (op : AluOp) (w : Word) (s : State) :
    datapathCommit (resultOnly op) w s = s.advance.setReg (regOf (fieldX w))
      (aluRes op (s.reg (regOf (fieldX w))) (s.reg (regOf (fieldY w))) (fieldKK w)) := rfl

/-- A flag row whose ALU answers the bit of `c` is the write-back of `c` and the result. -/
theorem commit_resultAndFlag {op : AluOp} {w : Word} {s : State} {c : Bool}
    (h : aluFlg op (s.reg (regOf (fieldX w))) (s.reg (regOf (fieldY w))) = some (BitVec.ofBool c)) :
    datapathCommit (resultAndFlag op) w s = s.advance.writeBack (regOf (fieldX w)) c
      (aluRes op (s.reg (regOf (fieldX w))) (s.reg (regOf (fieldY w))) (fieldKK w)) := by
  have h : aluFlg op (s.v.get (regOf (fieldX w))) (s.v.get (regOf (fieldY w))) = some (BitVec.ofBool c) := h
  simp only [datapathCommit, writePorts, resultAndFlag, h, zeroExtend_ofBool]
  rfl

/-! ### The row a word selects (R52, R53) -/

theorem datapathWord_of_group {w : Word} {g : Nibble} {c : ControlSignals} (hg : fieldG w = g)
    (hc : controlLevel1 g (fieldN w) = some c) (s : State) : datapathWord w s = datapathCommit c w s := by
  rw [datapathWord, controlOf, hg, hc]

theorem datapathWord_of_group8 {w : Word} {n : Nibble} {c : ControlSignals} (hw : fieldG w = 0x8#4 ∧ fieldN w = n)
    (hc : controlLevel2 n = some c) (s : State) : datapathWord w s = datapathCommit c w s := by
  obtain ⟨hg, hn⟩ := hw
  exact datapathWord_of_group hg (hn ▸ hc) s

/-- A word with no handler selects no row. -/
theorem controlOf_of_decode_error {w : Word} {e : DecodeError} (h : decode w = .error e) : controlOf w = none := by
  unfold controlOf controlLevel1
  split
  case h_8 hg =>
    unfold controlLevel2
    split
    case h_10 => rfl
    all_goals simp only [decode, decodeGroup8, *, reduceCtorEq] at h
  case h_9 => rfl
  all_goals simp only [decode, *, reduceCtorEq] at h

/-- An instruction does what the datapath commits for a word it is read from. -/
theorem exec_eq_datapathWord {w : Word} {i : Instr} (h : i.ReadFrom w) (s : State) :
    exec i s = .next (datapathWord w s) := by
  cases i with
  | jp a =>
    obtain ⟨hg, rfl⟩ := h
    rw [datapathWord_of_group hg rfl, commit_jump, exec_jp]
  | call a =>
    obtain ⟨hg, rfl⟩ := h
    rw [datapathWord_of_group hg rfl]
    rcases Nat.lt_or_ge s.sp.toNat 16 with hfree | hfull
    · rw [commit_call w hfree, exec_call _ hfree]
    · rw [commit_call_full w hfull, exec_call_full _ hfull]
  | se x kk =>
    obtain ⟨hg, rfl, rfl⟩ := h
    rw [datapathWord_of_group hg rfl, commit_se, exec_se]
  | sne x kk =>
    obtain ⟨hg, rfl, rfl⟩ := h
    rw [datapathWord_of_group hg rfl, commit_sne, exec_sne]
  | ser x y =>
    obtain ⟨hg, rfl, rfl⟩ := h
    rw [datapathWord_of_group hg rfl, commit_ser, exec_ser]
  | ld x kk =>
    obtain ⟨hg, rfl, rfl⟩ := h
    rw [datapathWord_of_group hg rfl, commit_resultOnly, exec_ld, aluRes]
  | add x kk =>
    obtain ⟨hg, rfl, rfl⟩ := h
    rw [datapathWord_of_group hg rfl, commit_resultOnly, exec_add, aluRes, narrow_add]
  | ldr x y =>
    obtain ⟨hw, rfl, rfl⟩ := h
    rw [datapathWord_of_group8 hw rfl, commit_resultOnly, exec_ldr, aluRes]
  | or x y =>
    obtain ⟨hw, rfl, rfl⟩ := h
    rw [datapathWord_of_group8 hw rfl, commit_resultOnly, exec_or, aluRes]
  | and x y =>
    obtain ⟨hw, rfl, rfl⟩ := h
    rw [datapathWord_of_group8 hw rfl, commit_resultOnly, exec_and, aluRes]
  | xor x y =>
    obtain ⟨hw, rfl, rfl⟩ := h
    rw [datapathWord_of_group8 hw rfl, commit_resultOnly, exec_xor, aluRes]
  | addr x y =>
    obtain ⟨hw, rfl, rfl⟩ := h
    rw [datapathWord_of_group8 hw rfl, commit_resultAndFlag (aluFlg_add ..), exec_addr, aluRes, narrow_add]
  | sub x y =>
    obtain ⟨hw, rfl, rfl⟩ := h
    rw [datapathWord_of_group8 hw rfl, commit_resultAndFlag (aluFlg_sub ..), exec_sub, aluRes, narrow_sub]
  | shr x =>
    obtain ⟨hw, rfl⟩ := h
    rw [datapathWord_of_group8 hw rfl, commit_resultAndFlag (aluFlg_shr ..), exec_shr, aluRes, narrow_half]
  | subn x y =>
    obtain ⟨hw, rfl, rfl⟩ := h
    rw [datapathWord_of_group8 hw rfl, commit_resultAndFlag (aluFlg_subn ..), exec_subn, aluRes, narrow_sub]
  | shl x =>
    obtain ⟨hw, rfl⟩ := h
    rw [datapathWord_of_group8 hw rfl, commit_resultAndFlag (aluFlg_shl ..), exec_shl, aluRes, narrow_double]

/-- On a fetched word the two descriptions agree: both find no handler, or both act on the same row and fields. -/
theorem dispatchWord_eq_datapathWord (w : Word) (s : State) : dispatchWord w s = .next (datapathWord w s) := by
  cases hd : decode w with
  | error e => rw [dispatchWord_error hd, datapathWord, controlOf_of_decode_error hd]
  | ok i => rw [dispatchWord_ok hd, exec_eq_datapathWord (readFrom_of_decode hd)]

/-- Settles O39, along the checks of a step (R106), which both descriptions make alike: what is left is the fetched
word (`dispatchWord_eq_datapathWord`). -/
theorem datapathEqualsInstructionRules : Obligations.DatapathEqualsInstructionRules := by
  intro s
  rcases step_cases s with ⟨hhalted, hs⟩ | ⟨hclear, hpast, hs⟩ | ⟨hclear, hfetch, w, hw, -⟩
  · rw [hs, datapathStep, if_pos (s.halted_iff.2 hhalted)]
  · rw [hs, datapathStep, s.not_halted_iff.2 hclear, s.not_fetchInBounds_iff.2 hpast]
    rfl
  · rw [step_fetched hclear hfetch hw, dispatchWord_eq_datapathWord, datapathStep, s.not_halted_iff.2 hclear,
      s.fetchInBounds_iff.2 hfetch, hw]
    rfl

end Sys2Proof.Machine
end
